-- ==== Sys2Proof/Word.lean ====
section
/-! DEFINITION. The word types of the CHIP-8 CORE: a byte, a 16-bit word, a register index and a 12-bit
address, as 00_scope.md R6 and 30_encoding.md R71 give their widths. Every value is unsigned (R7). -/

namespace Sys2Proof

/-- The contents of a V register, a timer or a memory cell: 8 bits (R6 `V_WIDTH`, `TIMER_WIDTH`). -/
abbrev Byte := BitVec 8

/-- The contents of `I`, `PC` or a stack entry, and an instruction word: 16 bits (R6, R70). -/
abbrev Word := BitVec 16

/-- A register index, the `X` or `Y` field: 4 bits, 0 to 15 (R73). It is also a key number (R12). -/
abbrev Reg := BitVec 4

/-- An address field `NNN`: 12 bits (R73). -/
abbrev Addr := BitVec 12

end Sys2Proof
end

