-- ==== Sys2Proof/Syntax.lean ====
section
/-! DEFINITION. The instructions: one constructor for each row of spec/opcode_table.json, in the table's order
(30_encoding.md R85: a tagged instruction type with one constructor per instruction). Operand fields have exactly
the widths R71 to R73 give them, so no term of `Instr` holds a field out of range. -/

namespace Sys2Proof

/-- A CHIP-8 instruction (00_scope.md R2). -/
inductive Instr where
  /-- `00E0`, CLS (R100). -/
  | cls
  /-- `00EE`, RET (R123). -/
  | ret
  /-- `1NNN`, JP (R121). -/
  | jp (nnn : Addr)
  /-- `2NNN`, CALL (R122). -/
  | call (nnn : Addr)
  /-- `3XNN`, SE_IMM (R124). -/
  | seImm (x : Reg) (nn : Byte)
  /-- `4XNN`, SNE_IMM (R125). -/
  | sneImm (x : Reg) (nn : Byte)
  /-- `5XY0`, SE_REG (R126). -/
  | seReg (x y : Reg)
  /-- `6XNN`, LD_IMM (R152). -/
  | ldImm (x : Reg) (nn : Byte)
  /-- `7XNN`, ADD_IMM (R154). -/
  | addImm (x : Reg) (nn : Byte)
  /-- `8XY0`, LD_REG (R153). -/
  | ldReg (x y : Reg)
  /-- `8XY1`, OR (R155). -/
  | orReg (x y : Reg)
  /-- `8XY2`, AND (R156). -/
  | andReg (x y : Reg)
  /-- `8XY3`, XOR (R157). -/
  | xorReg (x y : Reg)
  /-- `8XY4`, ADD_REG (R158). -/
  | addReg (x y : Reg)
  /-- `8XY5`, SUB (R159). -/
  | sub (x y : Reg)
  /-- `8XY6`, SHR (R160); `y` is decoded and ignored (R72). -/
  | shr (x y : Reg)
  /-- `8XY7`, SUBN (R161). -/
  | subn (x y : Reg)
  /-- `8XYE`, SHL (R162); `y` is decoded and ignored (R72). -/
  | shl (x y : Reg)
  /-- `9XY0`, SNE_REG (R128). -/
  | sneReg (x y : Reg)
  /-- `ANNN`, LD_I (R180). -/
  | ldI (nnn : Addr)
  /-- `BNNN`, JP_V0 (R127). -/
  | jpV0 (nnn : Addr)
  /-- `CXNN`, RND (R163). -/
  | rnd (x : Reg) (nn : Byte)
  /-- `DXYN`, DRW (R102); `n` is the number of rows, 0 to 15. -/
  | drw (x y : Reg) (n : BitVec 4)
  /-- `EX9E`, SKP (R200). -/
  | skp (x : Reg)
  /-- `EXA1`, SKNP (R201). -/
  | sknp (x : Reg)
  /-- `FX07`, LD_VX_DT (R202). -/
  | ldVxDt (x : Reg)
  /-- `FX0A`, LD_VX_K (R204). -/
  | ldVxK (x : Reg)
  /-- `FX15`, LD_DT_VX (R206). -/
  | ldDtVx (x : Reg)
  /-- `FX18`, LD_ST_VX (R207). -/
  | ldStVx (x : Reg)
  /-- `FX1E`, ADD_I_VX (R181). -/
  | addIVx (x : Reg)
  /-- `FX29`, LD_F_VX (R183). -/
  | ldFVx (x : Reg)
  /-- `FX33`, LD_B_VX (R184). -/
  | ldBVx (x : Reg)
  /-- `FX55`, LD_MEM_VX (R185). -/
  | ldMemVx (x : Reg)
  /-- `FX65`, LD_VX_MEM (R186). -/
  | ldVxMem (x : Reg)
  deriving DecidableEq, Repr

end Sys2Proof
end

