-- ==== Sys2Proof/WellFormed.lean ====
section
/-! DEFINITION. Which 16-bit words are instructions: the opcode table (spec/opcode_table.json, 30_encoding.md R80) as
rows of a pattern under a mask, and the check that a word fits a row. A term of `Instr` needs no check of its own,
since its fields' types have the fields' exact widths (R71); the check is on words, and it is written from the table
alone, independently of the decoder. -/

namespace Sys2Proof

/-- One row of the opcode table: `word` fits it when `word AND mask = pattern`. -/
structure OpcodeRow where
  mnemonic : String
  pattern : Word
  mask : Word
  deriving DecidableEq, Repr

/-- Does the word fit the row? -/
def OpcodeRow.fits (r : OpcodeRow) (w : Word) : Bool := w &&& r.mask == r.pattern

/-- The rows of groups 0 to 7. -/
def opcodeRowsPlain : List OpcodeRow :=
  [⟨"CLS", 0x00E0, 0xFFFF⟩,
   ⟨"RET", 0x00EE, 0xFFFF⟩,
   ⟨"JP", 0x1000, 0xF000⟩,
   ⟨"CALL", 0x2000, 0xF000⟩,
   ⟨"SE_IMM", 0x3000, 0xF000⟩,
   ⟨"SNE_IMM", 0x4000, 0xF000⟩,
   ⟨"SE_REG", 0x5000, 0xF00F⟩,
   ⟨"LD_IMM", 0x6000, 0xF000⟩,
   ⟨"ADD_IMM", 0x7000, 0xF000⟩]

/-- The rows of group 8. -/
def opcodeRowsGroup8 : List OpcodeRow :=
  [⟨"LD_REG", 0x8000, 0xF00F⟩,
   ⟨"OR", 0x8001, 0xF00F⟩,
   ⟨"AND", 0x8002, 0xF00F⟩,
   ⟨"XOR", 0x8003, 0xF00F⟩,
   ⟨"ADD_REG", 0x8004, 0xF00F⟩,
   ⟨"SUB", 0x8005, 0xF00F⟩,
   ⟨"SHR", 0x8006, 0xF00F⟩,
   ⟨"SUBN", 0x8007, 0xF00F⟩,
   ⟨"SHL", 0x800E, 0xF00F⟩]

/-- The rows of groups 9 and A to D. -/
def opcodeRowsMiddle : List OpcodeRow :=
  [⟨"SNE_REG", 0x9000, 0xF00F⟩,
   ⟨"LD_I", 0xA000, 0xF000⟩,
   ⟨"JP_V0", 0xB000, 0xF000⟩,
   ⟨"RND", 0xC000, 0xF000⟩,
   ⟨"DRW", 0xD000, 0xF000⟩]

/-- The rows of groups E and F. -/
def opcodeRowsSubNN : List OpcodeRow :=
  [⟨"SKP", 0xE09E, 0xF0FF⟩,
   ⟨"SKNP", 0xE0A1, 0xF0FF⟩,
   ⟨"LD_VX_DT", 0xF007, 0xF0FF⟩,
   ⟨"LD_VX_K", 0xF00A, 0xF0FF⟩,
   ⟨"LD_DT_VX", 0xF015, 0xF0FF⟩,
   ⟨"LD_ST_VX", 0xF018, 0xF0FF⟩,
   ⟨"ADD_I_VX", 0xF01E, 0xF0FF⟩,
   ⟨"LD_F_VX", 0xF029, 0xF0FF⟩,
   ⟨"LD_B_VX", 0xF033, 0xF0FF⟩,
   ⟨"LD_MEM_VX", 0xF055, 0xF0FF⟩,
   ⟨"LD_VX_MEM", 0xF065, 0xF0FF⟩]

/-- The whole opcode table, 34 rows (R2, R80). -/
def opcodeRows : List OpcodeRow :=
  opcodeRowsPlain ++ opcodeRowsGroup8 ++ opcodeRowsMiddle ++ opcodeRowsSubNN

/-- The word is one of the 34 instructions (R84); every other word is illegal. -/
def wordLegal (w : Word) : Bool := opcodeRows.any fun r => r.fits w

end Sys2Proof
end

