-- ==== Sys2Proof/Decode.lean ====
section
/-! DEFINITION. The decoder (30_encoding.md R70 to R74, R80 to R85), total on any word and any bytes, rejecting by
name; and the encoder, written from the same layouts (R72). -/

namespace Sys2Proof

/-- The group nibble `G = w[15:12]` (R71). -/
def fieldG (w : Word) : BitVec 4 := w.extractLsb' 12 4

/-- The field `X = w[11:8]` (R71). -/
def fieldX (w : Word) : Reg := w.extractLsb' 8 4

/-- The field `Y = w[7:4]` (R71). -/
def fieldY (w : Word) : Reg := w.extractLsb' 4 4

/-- The field `N = w[3:0]` (R71). -/
def fieldN (w : Word) : BitVec 4 := w.extractLsb' 0 4

/-- The field `NN = w[7:0]` (R71). -/
def fieldNN (w : Word) : Byte := w.extractLsb' 0 8

/-- The field `NNN = w[11:0]` (R71). -/
def fieldNNN (w : Word) : Addr := w.extractLsb' 0 12

/-- Why the decoder rejects: each group's unrecognized words by name, and too few bytes. -/
inductive Reject where
  /-- Group 0, not `00E0` and not `00EE` (R81, D10). -/
  | group0
  /-- `5XYN` with `N` not 0 (R82). -/
  | group5
  /-- Group 8 with `N` in 8, 9, A, B, C, D, F (R83). -/
  | group8
  /-- `9XYN` with `N` not 0 (R82, D11). -/
  | group9
  /-- Group E with `NN` not 9E and not A1 (R83). -/
  | groupE
  /-- Group F with `NN` none of the nine of R80 (R83). -/
  | groupF
  /-- Fewer than two bytes: no instruction word (R70). -/
  | truncated
  deriving DecidableEq, Repr

/-- Group 0: two whole words (R81). -/
def decodeGroup0 (w : Word) : Except Reject Instr :=
  if w = 0x00E0 then .ok .cls
  else if w = 0x00EE then .ok .ret
  else .error .group0

/-- Group 8: the sub-opcode is `N` (R80, R83). -/
def decodeGroup8 (x y : Reg) (n : BitVec 4) : Except Reject Instr :=
  match n with
  | 0x0#4 => .ok (.ldReg x y)
  | 0x1#4 => .ok (.orReg x y)
  | 0x2#4 => .ok (.andReg x y)
  | 0x3#4 => .ok (.xorReg x y)
  | 0x4#4 => .ok (.addReg x y)
  | 0x5#4 => .ok (.sub x y)
  | 0x6#4 => .ok (.shr x y)
  | 0x7#4 => .ok (.subn x y)
  | 0xE#4 => .ok (.shl x y)
  | _ => .error .group8

/-- Group E: the sub-opcode is `NN` (R80, R83). -/
def decodeGroupE (x : Reg) (nn : Byte) : Except Reject Instr :=
  match nn with
  | 0x9E#8 => .ok (.skp x)
  | 0xA1#8 => .ok (.sknp x)
  | _ => .error .groupE

/-- Group F: the sub-opcode is `NN` (R80, R83). -/
def decodeGroupF (x : Reg) (nn : Byte) : Except Reject Instr :=
  match nn with
  | 0x07#8 => .ok (.ldVxDt x)
  | 0x0A#8 => .ok (.ldVxK x)
  | 0x15#8 => .ok (.ldDtVx x)
  | 0x18#8 => .ok (.ldStVx x)
  | 0x1E#8 => .ok (.addIVx x)
  | 0x29#8 => .ok (.ldFVx x)
  | 0x33#8 => .ok (.ldBVx x)
  | 0x55#8 => .ok (.ldMemVx x)
  | 0x65#8 => .ok (.ldVxMem x)
  | _ => .error .groupF

/-- The dispatch of R80, by group nibble. The last arm is group F, the one nibble the others leave. -/
def decodeWord (w : Word) : Except Reject Instr :=
  match fieldG w with
  | 0x0#4 => decodeGroup0 w
  | 0x1#4 => .ok (.jp (fieldNNN w))
  | 0x2#4 => .ok (.call (fieldNNN w))
  | 0x3#4 => .ok (.seImm (fieldX w) (fieldNN w))
  | 0x4#4 => .ok (.sneImm (fieldX w) (fieldNN w))
  | 0x5#4 => if fieldN w = 0 then .ok (.seReg (fieldX w) (fieldY w)) else .error .group5
  | 0x6#4 => .ok (.ldImm (fieldX w) (fieldNN w))
  | 0x7#4 => .ok (.addImm (fieldX w) (fieldNN w))
  | 0x8#4 => decodeGroup8 (fieldX w) (fieldY w) (fieldN w)
  | 0x9#4 => if fieldN w = 0 then .ok (.sneReg (fieldX w) (fieldY w)) else .error .group9
  | 0xA#4 => .ok (.ldI (fieldNNN w))
  | 0xB#4 => .ok (.jpV0 (fieldNNN w))
  | 0xC#4 => .ok (.rnd (fieldX w) (fieldNN w))
  | 0xD#4 => .ok (.drw (fieldX w) (fieldY w) (fieldN w))
  | 0xE#4 => decodeGroupE (fieldX w) (fieldNN w)
  | _ => decodeGroupF (fieldX w) (fieldNN w)

/-- The instruction word of two bytes: the byte at the lower address holds bits 15 to 8 (R53, R70). -/
def wordOfBytes (hi lo : Byte) : Word := hi ++ lo

/-- The decoder on the bytes that stand at the program counter: the instruction and the bytes after it. -/
def decode : List Byte → Except Reject (Instr × List Byte)
  | hi :: lo :: rest => (decodeWord (wordOfBytes hi lo)).map fun i => (i, rest)
  | _ => .error .truncated

/-- Format `A`: `base | NNN` (R72). -/
def wordA (base : Word) (nnn : Addr) : Word := base ||| nnn.setWidth 16

/-- Format `X`: `base | X<<8` (R72). -/
def wordX (base : Word) (x : Reg) : Word := base ||| (x.setWidth 16 <<< 8)

/-- Format `XB`: `base | X<<8 | NN` (R72). -/
def wordXB (base : Word) (x : Reg) (nn : Byte) : Word := base ||| (x.setWidth 16 <<< 8) ||| nn.setWidth 16

/-- Format `XY`: `base | X<<8 | Y<<4` (R72). -/
def wordXY (base : Word) (x y : Reg) : Word := base ||| (x.setWidth 16 <<< 8) ||| (y.setWidth 16 <<< 4)

/-- Format `XYN`: `base | X<<8 | Y<<4 | N` (R72). -/
def wordXYN (base : Word) (x y : Reg) (n : BitVec 4) : Word :=
  base ||| (x.setWidth 16 <<< 8) ||| (y.setWidth 16 <<< 4) ||| n.setWidth 16

/-- The instruction's word, as the `Encoding` lines of files 40 to 44 give it. -/
def encode : Instr → Word
  | .cls => 0x00E0
  | .ret => 0x00EE
  | .jp nnn => wordA 0x1000 nnn
  | .call nnn => wordA 0x2000 nnn
  | .seImm x nn => wordXB 0x3000 x nn
  | .sneImm x nn => wordXB 0x4000 x nn
  | .seReg x y => wordXY 0x5000 x y
  | .ldImm x nn => wordXB 0x6000 x nn
  | .addImm x nn => wordXB 0x7000 x nn
  | .ldReg x y => wordXY 0x8000 x y
  | .orReg x y => wordXY 0x8001 x y
  | .andReg x y => wordXY 0x8002 x y
  | .xorReg x y => wordXY 0x8003 x y
  | .addReg x y => wordXY 0x8004 x y
  | .sub x y => wordXY 0x8005 x y
  | .shr x y => wordXY 0x8006 x y
  | .subn x y => wordXY 0x8007 x y
  | .shl x y => wordXY 0x800E x y
  | .sneReg x y => wordXY 0x9000 x y
  | .ldI nnn => wordA 0xA000 nnn
  | .jpV0 nnn => wordA 0xB000 nnn
  | .rnd x nn => wordXB 0xC000 x nn
  | .drw x y n => wordXYN 0xD000 x y n
  | .skp x => wordX 0xE09E x
  | .sknp x => wordX 0xE0A1 x
  | .ldVxDt x => wordX 0xF007 x
  | .ldVxK x => wordX 0xF00A x
  | .ldDtVx x => wordX 0xF015 x
  | .ldStVx x => wordX 0xF018 x
  | .addIVx x => wordX 0xF01E x
  | .ldFVx x => wordX 0xF029 x
  | .ldBVx x => wordX 0xF033 x
  | .ldMemVx x => wordX 0xF055 x
  | .ldVxMem x => wordX 0xF065 x

/-- The bytes of a word as memory holds it: the high byte first (R53). -/
def bytesOfWord (w : Word) : List Byte := [w.extractLsb' 8 8, w.extractLsb' 0 8]

/-- The word of an opcode-table row's first `nbits` bits, the bits above them zero. -/
def tableWord (nbits w : Nat) : Word := BitVec.ofNat 16 (w % 2 ^ nbits)

/-- The instruction the decoder reads from the opcode table's bits (bit 0 the least significant bit of the one word). -/
def decodeTableWord (nbits w : Nat) : Option Instr :=
  match decode (bytesOfWord (tableWord nbits w)) with
  | .ok (i, _) => some i
  | .error _ => none

end Sys2Proof
end

