-- ==== Sys2Proof/Config.lean ====
section
/-! DEFINITION. What is fixed for the machine (00_scope.md R6) and what the environment chooses freely. A constant
declared `opaque` has no body that a proof could see: it stands for every value. -/

namespace Sys2Proof.Config

/-- `MEM_SIZE` (R6): 4096 byte cells. -/
def memSize : Nat := 4096

/-- `FONT_BASE` (R6). -/
def fontBase : Nat := 0

/-- `GLYPH_BYTES` (R6). -/
def glyphBytes : Nat := 5

/-- `PROG_BASE` (R6): where the program loads and `PC` starts (R261). -/
def progBase : Nat := 512

/-- `STACK_DEPTH` is a parameter, at least 16 (R30, D4); this is by how much it exceeds 16. FREE (log 5). -/
opaque extraDepth : Nat

/-- The glyphs 0 to 7 of the default font (92_eei_decisions.md section 2). PRESUMED (log 6). -/
def fontLow : List Byte :=
  [0xF0, 0x90, 0x90, 0x90, 0xF0] ++ [0x20, 0x60, 0x20, 0x20, 0x70] ++
  [0xF0, 0x10, 0xF0, 0x80, 0xF0] ++ [0xF0, 0x10, 0xF0, 0x10, 0xF0] ++
  [0x90, 0x90, 0xF0, 0x10, 0x10] ++ [0xF0, 0x80, 0xF0, 0x10, 0xF0] ++
  [0xF0, 0x80, 0xF0, 0x90, 0xF0] ++ [0xF0, 0x10, 0x20, 0x40, 0x40]

/-- The glyphs 8 to F of the default font (92_eei_decisions.md section 2). PRESUMED (log 6). -/
def fontHigh : List Byte :=
  [0xF0, 0x90, 0xF0, 0x90, 0xF0] ++ [0xF0, 0x90, 0xF0, 0x10, 0xF0] ++
  [0xF0, 0x90, 0xF0, 0x90, 0x90] ++ [0xE0, 0x90, 0xE0, 0x90, 0xE0] ++
  [0xF0, 0x80, 0x80, 0x80, 0xF0] ++ [0xE0, 0x90, 0x90, 0x90, 0xE0] ++
  [0xF0, 0x80, 0xF0, 0x80, 0xF0] ++ [0xF0, 0x80, 0xF0, 0x80, 0x80]

/-- The default of the parameter `FONT` (R6, R266, D3): 80 bytes, glyph `d` at address `5 * d`. Another font is
supplied by a `load`. PRESUMED (log 6). -/
def font : Vector Byte 80 := ⟨(fontLow ++ fontHigh).toArray, by decide⟩

/-- The answer `rand8()` gives at the `n`-th question asked of the environment, where the state holds none in store
(R12, R163, D18). FREE (log 2). -/
opaque rand8 (n : Nat) : Byte

/-- The answer `keyDown(k)` gives at the `n`-th question, where the state holds none in store, for every byte `k`,
16 and above too (R12, R200, R203, D12). FREE (log 3). -/
opaque keyDown (n : Nat) (k : Byte) : Bool

/-- The answer `keyEvent()` gives at the `n`-th question, where the state holds none in store: none, or a key 0 to 15
(R12, R205, D13). FREE (log 4). -/
opaque keyEvent (n : Nat) : Option Reg

end Sys2Proof.Config
end

