-- ==== Sys2Proof/Machine/State.lean ====
section
/-! DEFINITION. The machine's state as plain data: the block's record of 10_state.md R20, the environment beside it, and the
state after reset (R44). -/

namespace Sys2Proof.Machine

/-- The framebuffer (R36): `fb[x][y]`, column `x` 0 to 63, row `y` 0 to 31; `true` is a set pixel. -/
abbrev Framebuffer := Vector (Vector Bool 32) 64

/-- The AddressSpace (R37, R50): the cells that differ from the reset contents, addresses strictly rising. -/
abbrev Memory := List Host.Cell

/-- The five errors with the information recorded (60_exceptions.md R220). -/
inductive Error where
  /-- An illegal word at decode: the word and `PC` (R92). -/
  | invalidOpcode (w pc : Word)
  /-- A byte address of 4096 or more: the lowest failing address and `PC` (R51, R91). -/
  | outOfBounds (addr : Nat) (pc : Word)
  /-- A call with a full stack (R122). -/
  | stackOverflow (pc : Word)
  /-- A return with an empty stack (R123). -/
  | stackUnderflow (pc : Word)
  /-- A load that does not fit: the length (R65). -/
  | romTooLarge (len : Nat)
  deriving DecidableEq, Repr

/-- The engine's run state (R40). -/
inductive Run where
  /-- Each cycle executes one instruction. -/
  | running
  /-- `FX0A` waits for a key to put into register `x` (R204, R205). -/
  | awaitingKey (x : Reg)
  /-- A fatal error: terminal until reset (R41, R225). -/
  | halted (err : Error)
  deriving DecidableEq, Repr

/-- What the ROM/font loader supplies (R12, R265): 80 font bytes and the program bytes. -/
structure Image where
  font : Vector Byte 80
  prog : List Byte
  deriving DecidableEq, Repr

/-- An input event (R12, R13). -/
inductive Event where
  /-- One instruction cycle (R90). -/
  | cycle
  /-- One tick of the TimerUnit (R231). -/
  | tick
  /-- An explicit machine reset (R260). -/
  | rst
  /-- The loader supplies an image (R265). -/
  | load (img : Image)
  deriving DecidableEq, Repr

/-- An answer the environment gives to a query of the block (R12, R14). -/
inductive Answer where
  /-- To `rand8()`: any byte (R163). -/
  | rand8 (b : Byte)
  /-- To `keyDown(k)`: is the key down (R200). -/
  | keyDown (d : Bool)
  /-- To `keyEvent()`: no key press, or a key 0 to 15 (R205). -/
  | keyEvent (k : Option Reg)
  deriving DecidableEq, Repr

/-- An output pulse (R12). -/
inductive Pulse where
  /-- The clear command of `00E0` (R100). -/
  | fbClear
  /-- The redraw signal of each tick (R233). -/
  | redraw
  deriving DecidableEq, Repr

/-- Why a step could stop with a fault. NOBODY raises one, so there is no constructor: each of the spec's five errors
puts the engine in `Halted`, which is a state of the machine, so it is taken as a next state (log 9). Safe. -/
inductive Fault where
  deriving DecidableEq, Repr

/-- Why a step could give no meaning. -/
inductive Refusal where
  /-- An arm of `exec` whose instruction has no meaning yet, by mnemonic: no arm is left that answers so. Safe. -/
  | notModelled (mnemonic : String)
  deriving DecidableEq, Repr

/-- The block's state: EXACTLY the record of 10_state.md R20, one field per row and nothing else. -/
structure Block where
  /-- `V0` to `VF` (R21). -/
  v : Vector Byte 16
  /-- `I`, the index register (R29). -/
  index : Word
  /-- `PC`, the program counter (R26). -/
  pc : Word
  /-- The call stack, top last (R30). -/
  stack : List Word
  /-- `DT`, the delay timer (R34). -/
  dt : Byte
  /-- `ST`, the sound timer (R35). -/
  st : Byte
  /-- `FB`, the framebuffer (R36). -/
  fb : Framebuffer
  /-- `mem`, the AddressSpace (R37). -/
  mem : Memory
  /-- `run`, the run state (R40). -/
  run : Run
  deriving DecidableEq, Repr

/-- What stands OUTSIDE the block and is no state of it (R20, R12): the loader's image, which is configuration (R6), and the
environment's events, answers and the pulses it has been sent. A step is a function of one value, so it carries both
(log 35). -/
structure Env where
  /-- The image the last `load` supplied, which `rst` loads again (R260). -/
  image : Image
  /-- How many answers the environment has given; the free values of Config are applied to it. -/
  draws : Nat
  /-- Answers of the environment in store, next first. Where the next one is none, or is not to the query that is asked,
  the answer is a free value of Config. -/
  answers : List Answer
  /-- The events the environment issues, next first. When the list is at its end, cycles follow. -/
  schedule : List Event
  /-- The output pulses sent so far, oldest first. -/
  pulses : List Pulse
  deriving DecidableEq, Repr

/-- What a step maps: the block's state, `s.toBlock` (R20), and beside it the environment, `s.toEnv`, which is the model's own
(logs 1, 2, 10, 11, 12, 35). -/
structure State extends Block, Env where
  deriving DecidableEq, Repr

/-- The machine right after reset (R44, R260, R261), with the default font and no program. `V`, `I` and the memory
outside the font are the spec's decision D2 (logs 7, 8); `image`, `draws`, `answers`, `schedule` and `pulses` are
DESIGN CHOICE (logs 10, 12). -/
def State.reset : State where
  v := Vector.replicate 16 0
  index := 0
  pc := 512
  stack := []
  dt := 0
  st := 0
  fb := Vector.replicate 64 (Vector.replicate 32 false)
  mem := []
  run := .running
  image := ⟨Config.font, []⟩
  draws := 0
  answers := []
  schedule := []
  pulses := []

end Sys2Proof.Machine
end

