-- ==== Sys2Proof/Machine/Ops.lean ====
section
/-! DEFINITION. The named operations over the state: registers, memory, stack, framebuffer, run state, the
environment's answers and events, and raising an error, which is this machine's one way of taking an exception
(60_exceptions.md R221, R223). There is no return from one (R225): only `rst` leaves the halted state. -/

namespace Sys2Proof.Machine

/-! ### Registers -/

/-- Read `V[r]` (R21). -/
def State.reg (s : State) (r : Reg) : Byte := s.v[r.toNat]'(r.isLt)

/-- `V[r] <- b` (R21). No register is hardwired. -/
def State.setReg (s : State) (r : Reg) (b : Byte) : State :=
  { s with v := s.v.set r.toNat b (r.isLt) }

/-- `VF`, the flag latch (R22). -/
def vf : Reg := 0xF

/-- `I <- w` (R29). -/
def State.setIndex (s : State) (w : Word) : State := { s with index := w }

/-- `PC <- w` (R27). -/
def State.setPc (s : State) (w : Word) : State := { s with pc := w }

/-- The default advance `PC <- PC + 2` (R93). -/
def State.advance (s : State) : State := s.setPc (s.pc + 2)

/-- `skip_if(c)` (R120). -/
def State.skipIf (s : State) (c : Bool) : State := s.setPc (if c then s.pc + 4 else s.pc + 2)

/-- `DT <- b` (R34). -/
def State.setDt (s : State) (b : Byte) : State := { s with dt := b }

/-- `ST <- b` (R35). -/
def State.setSt (s : State) (b : Byte) : State := { s with st := b }

/-- `run <- r` (R40). -/
def State.setRun (s : State) (r : Run) : State := { s with run := r }

/-- The framebuffer becomes `fb` (R36). -/
def State.setFb (s : State) (fb : Framebuffer) : State := { s with fb := fb }

/-- The memory becomes `m` (R37). -/
def State.setMem (s : State) (m : Memory) : State := { s with mem := m }

/-- The stack becomes `xs` (R30). -/
def State.setStack (s : State) (xs : List Word) : State := { s with stack := xs }

/-- Send an output pulse (R12). -/
def State.emit (s : State) (p : Pulse) : State := { s with pulses := s.pulses ++ [p] }

/-! ### Raising an error -/

/-- `raise e` (R7, R221, R223): `run <- Halted(e)` and nothing else. -/
def State.raise (s : State) (e : Error) : State := s.setRun (.halted e)

/-- End an instruction: its next state, or, where a step of it raised an error, the state BEFORE the instruction with
that error raised, so that nothing the instruction would have written is written (R223). -/
def State.settle (s : State) (r : Except Error State) : Host.Outcome State Fault Refusal :=
  match r with
  | .ok t => .next t
  | .error e => .next (s.raise e)

/-- The error's code on the `status` port (R220, D15). -/
def Error.code : Error → Nat
  | .invalidOpcode _ _ => 1
  | .outOfBounds _ _ => 2
  | .stackOverflow _ => 3
  | .stackUnderflow _ => 4
  | .romTooLarge _ => 5

/-! ### Memory -/

/-- What a cell the list does not name holds: the reset contents, the default font at 0 to 79 and 0 elsewhere
(R37, R57; logs 6, 8). -/
def unlistedByte (a : Nat) : Byte := (Config.fontLow ++ Config.fontHigh).getD a 0

/-- The byte the memory holds at an address below 4096: the listed one, or else what the unlisted cell holds. -/
def Memory.read (m : Memory) (a : Nat) : Byte :=
  match m with
  | [] => unlistedByte a
  | c :: rest => if c.1 = a then c.2 else Memory.read rest a

/-- Put a cell into a list of rising addresses. -/
def Memory.insert (m : Memory) (a : Nat) (b : Byte) : Memory :=
  match m with
  | [] => [(a, b)]
  | c :: rest => if a < c.1 then (a, b) :: c :: rest else c :: Memory.insert rest a b

/-- `mem[a] <- b`, in canonical form: an entry only where `b` is not what the unlisted cell holds. -/
def Memory.set (m : Memory) (a : Nat) (b : Byte) : Memory :=
  let others := m.filter fun c => c.1 != a
  if b = unlistedByte a then others else Memory.insert others a b

/-- Write the bytes one after the other from address `a` on. -/
def Memory.setBytes (m : Memory) (a : Nat) (bs : List Byte) : Memory :=
  match bs with
  | [] => m
  | b :: rest => Memory.setBytes (m.set a b) (a + 1) rest

/-- The canonical form: addresses strictly rising and below 4096, no entry equal to the unlisted contents. -/
def Memory.wf : Memory → Bool
  | [] => true
  | c :: rest =>
    decide (c.1 < Config.memSize) && decide (c.2 ≠ unlistedByte c.1) &&
      rest.all (fun d => decide (c.1 < d.1)) && Memory.wf rest

/-- The lowest of the addresses `a` to `a + n - 1` that is 4096 or more (R51): exact integers, no wrap (D7). -/
def firstOutside (a n : Nat) : Option Nat :=
  ((List.range n).map fun k => a + k).find? fun b => decide (Config.memSize ≤ b)

/-- `MemRead(a, n)` (R51): every address is checked before a byte is read. -/
def State.readBytes (s : State) (a n : Nat) : Except Error (List Byte) :=
  match firstOutside a n with
  | some b => .error (.outOfBounds b s.pc)
  | none => .ok ((List.range n).map fun k => s.mem.read (a + k))

/-- `MemWrite(a, n, v)` with the bytes of `v` in address order (R51): every address is checked before a byte is
written. -/
def State.writeBytes (s : State) (a : Nat) (bs : List Byte) : Except Error State :=
  match firstOutside a bs.length with
  | some b => .error (.outOfBounds b s.pc)
  | none => .ok (s.setMem (s.mem.setBytes a bs))

/-- One byte of memory, for statements about it. -/
def State.byte (s : State) (a : Nat) : Byte := s.mem.read a

/-! ### Call stack -/

/-- `STACK_DEPTH` (R6, R30): at least 16. -/
def stackDepth : Nat := Config.extraDepth + 16

/-- `push(v)` (R31). -/
def State.push (s : State) (w : Word) : Except Error State :=
  if s.stack.length < stackDepth then .ok (s.setStack (s.stack ++ [w])) else .error (.stackOverflow s.pc)

/-- `pop()` (R32): the top entry and the state without it. -/
def State.pop (s : State) : Except Error (Word × State) :=
  match s.stack.getLast? with
  | some w => .ok (w, s.setStack s.stack.dropLast)
  | none => .error (.stackUnderflow s.pc)

/-! ### Register blocks -/

/-- `V[0]` to `V[x]`, in order (R185). -/
def State.regsUpTo (s : State) (x : Reg) : List Byte :=
  (List.range (x.toNat + 1)).map fun k => s.reg (BitVec.ofNat 4 k)

/-- `V[k], V[k+1], … <- bs` (R186). -/
def State.setRegsFrom (s : State) (k : Nat) (bs : List Byte) : State :=
  match bs with
  | [] => s
  | b :: rest => (s.setReg (BitVec.ofNat 4 k) b).setRegsFrom (k + 1) rest

/-! ### Framebuffer -/

/-- The pixel at column `x`, row `y` (R36). -/
def Framebuffer.pixel (fb : Framebuffer) (x : Fin 64) (y : Fin 32) : Bool := fb[x.val][y.val]

/-- `FB[x][y] <- FB[x][y] XOR 1` (R102). -/
def Framebuffer.toggle (fb : Framebuffer) (x : Fin 64) (y : Fin 32) : Framebuffer :=
  fb.set x.val (fb[x.val].set y.val (!fb[x.val][y.val]))

/-- The framebuffer with every pixel clear (R36, R100). -/
def Framebuffer.clear : Framebuffer := Vector.replicate 64 (Vector.replicate 32 false)

/-- A draw in progress: the framebuffer and whether a pixel went from set to clear (R102). -/
structure Canvas where
  fb : Framebuffer
  collide : Bool
  deriving DecidableEq, Repr

/-- Toggle one pixel, its column modulo 64 and its row modulo 32, and note a collision (R102, R103, D24). -/
def plot (x y : Nat) (c : Canvas) : Canvas :=
  let px : Fin 64 := Fin.ofNat 64 x
  let py : Fin 32 := Fin.ofNat 32 y
  ⟨c.fb.toggle px py, c.collide || c.fb.pixel px py⟩

/-- One sprite row: bit 7 is column 0 (R101). -/
def blitRow (x0 y : Nat) (row : Byte) (c : Canvas) : Canvas :=
  (List.range 8).foldl (fun c j => if row.getLsbD (7 - j) then plot (x0 + j) y c else c) c

/-- The sprite's rows from row `y` on (R101, R102). -/
def blit (x0 y : Nat) (rows : List Byte) (c : Canvas) : Canvas :=
  match rows with
  | [] => c
  | row :: rest => blit x0 (y + 1) rest (blitRow x0 y row c)

/-! ### The environment's answers -/

/-- One more answer has been taken from the environment. -/
def State.drawn (s : State) : State := { s with draws := s.draws + 1, answers := s.answers.tail }

/-- `rand8()` (R12): the answer in store, or else a free byte. -/
def State.rand8 (s : State) : Byte :=
  match s.answers with
  | .rand8 b :: _ => b
  | _ => Config.rand8 s.draws

/-- `keyDown(k)` (R12): the answer in store, or else a free one, for `k` of 16 and above too (R203). -/
def State.keyDown (s : State) (k : Byte) : Bool :=
  match s.answers with
  | .keyDown d :: _ => d
  | _ => Config.keyDown s.draws k

/-- `keyEvent()` (R12): the answer in store, or else a free one. -/
def State.keyEvent (s : State) : Option Reg :=
  match s.answers with
  | .keyEvent k :: _ => k
  | _ => Config.keyEvent s.draws

/-! ### Events -/

/-- One count down, never below 0 (R231). -/
def countDown (b : Byte) : Byte := if b = 0 then 0 else b - 1

/-- `tick()` (R231, R233), in every run state (R234). -/
def State.tick (s : State) : State := ((s.setDt (countDown s.dt)).setSt (countDown s.st)).emit .redraw

/-- `load(bytes, offset)` (R65): fails, writing nothing, if the bytes do not fit. -/
def loadBytes (bs : List Byte) (offset : Nat) (m : Memory) : Except Error Memory :=
  if offset + bs.length ≤ Config.memSize then .ok (m.setBytes offset bs) else .error (.romTooLarge bs.length)

/-- The font load (R265 step 2): 80 bytes at 0, which always fit. -/
def loadFont (img : Image) (m : Memory) : Memory := m.setBytes Config.fontBase img.font.toList

/-- Memory and run state after a reset with this image (R260). The 80 font bytes cover every cell whose unlisted
contents are not 0, so the memory they are written over stands for one that is all 0. -/
def bootMemory (img : Image) : Memory × Run :=
  match loadBytes img.prog Config.progBase (loadFont img []) with
  | .ok m => (m, .running)
  | .error e => (loadFont img [], .halted e)

/-- Every piece of state at its reset value, with this image loaded (R44, R260); what the environment sees and supplies
goes on. -/
def State.restart (s : State) (img : Image) : State :=
  { State.reset with
    mem := (bootMemory img).1, run := (bootMemory img).2, image := img,
    draws := s.draws, answers := s.answers, schedule := s.schedule, pulses := s.pulses }

/-- `rst` (R260, D25): in every run state, with the last image. -/
def State.rst (s : State) : State := s.restart s.image

/-- The `load` event (R265, R226): the font, then the program. Where the program does not fit, the engine halts with the
font written and nothing else; else the rest takes its reset values. Only `rst` leaves the halted state (R41), so a
halted engine stays halted (log 12). -/
def State.loadImage (s : State) (img : Image) : State :=
  match loadBytes img.prog Config.progBase (loadFont img s.mem) with
  | .error e => { s with mem := loadFont img s.mem, image := img, run := .halted e }
  | .ok _ =>
    match s.run with
    | .halted e => { s.restart img with run := .halted e }
    | _ => s.restart img

/-- The event the environment issues next: a cycle where its list is at its end (R236; log 1). -/
def State.nextInput (s : State) : Event := s.schedule.headD .cycle

/-- The state when that event is handled: it is no longer to come. -/
def State.issued (s : State) : State := { s with schedule := s.schedule.tail }

/-! ### Output ports -/

/-- `tone` (R232): on while `ST > 0`. -/
def State.tone (s : State) : Bool := decide (0 < s.st.toNat)

/-- `load_status` (R12, R226): whether the last image's program fitted. -/
inductive LoadStatus where
  | ok
  | romTooLarge
  deriving DecidableEq, Repr

/-- The `load_status` port. -/
def State.loadStatus (s : State) : LoadStatus :=
  if Config.progBase + s.image.prog.length ≤ Config.memSize then .ok else .romTooLarge

/-! ### Cycle parts -/

/-- The fetch (R91): the word at `PC` and `PC + 1`, big-endian. -/
def State.fetch (s : State) : Except Error Word :=
  (s.readBytes s.pc.toNat 2).map fun bs => wordOfBytes (bs.getD 0 0) (bs.getD 1 0)

/-- A cycle in `AwaitingKey(x)` (R205): one poll, nothing else. -/
def State.awaitKeyPoll (s : State) (x : Reg) : State :=
  match s.keyEvent with
  | none => s.drawn
  | some k => (((s.drawn.setReg x (k.setWidth 8)).setPc (s.pc + 2)).setRun .running)

/-- The state with an instruction word where the next step fetches it: at `PC`, the engine running and a cycle the next event.
At a `PC` of 4095 or more no word can stand, and the memory is left alone (log 13). -/
def State.withWord (s : State) (w : Word) : State :=
  let t := s.setRun .running
  match t.writeBytes s.pc.toNat (bytesOfWord w) with
  | .ok u => { u with schedule := [] }
  | .error _ => { t with schedule := [] }

end Sys2Proof.Machine
end

