-- ==== Sys2Proof/Machine/Flags.lean ====
section
/-! DEFINITION. Every value `VF` takes as a flag (10_state.md R24), and the order in which a flag-writing instruction
writes: the result first, `VF` last (R23, 42_alu.md R151). -/

namespace Sys2Proof.Machine

/-- A flag as a register value: 1 or 0. -/
def flagByte (c : Bool) : Byte := if c then 1 else 0

/-- The carry of `8XY4`: the exact sum is above 255 (R158). -/
def carryOut (a b : Byte) : Bool := decide (255 < a.toNat + b.toNat)

/-- The flag of `8XY5` and `8XY7`: `a - b` needs no borrow, that is `a >= b` (R159, R161). -/
def noBorrow (a b : Byte) : Bool := decide (b.toNat ≤ a.toNat)

/-- The bit `8XY6` shifts out: bit 0 (R160). -/
def lowBit (a : Byte) : Bool := a.getLsbD 0

/-- The bit `8XYE` shifts out: bit 7 (R162). -/
def highBit (a : Byte) : Bool := a.getLsbD 7

/-- Write the result to `V[x]`, then the flag to `VF` (R23). -/
def State.setRegFlag (s : State) (x : Reg) (r : Byte) (c : Bool) : State :=
  (s.setReg x r).setReg vf (flagByte c)

end Sys2Proof.Machine
end

