-- ==== Sys2Proof/Machine/Operands.lean ====
section
/-! DEFINITION. Operand assembly and addressing (30_encoding.md R73, 43_index_memory.md R182 to R184). No immediate is
sign-extended, scaled or shifted. -/

namespace Sys2Proof.Machine

/-- `zext_16(NNN)`: an address field as `PC` or `I` holds it (R73). -/
def addrWord (nnn : Addr) : Word := nnn.setWidth 16

/-- The target of `BNNN`: the exact sum `zext_16(NNN) + zext_16(V[0])` (R73, R127). -/
def jumpTarget (nnn : Addr) (v0 : Byte) : Word := nnn.setWidth 16 + v0.setWidth 16

/-- The glyph address of `FX29`: `V[X] * 5`, unmasked (R183). -/
def glyphAddr (b : Byte) : Word := BitVec.ofNat 16 (b.toNat * Config.glyphBytes)

/-- The base address of every data access: `I`, as an exact integer; byte `k` stands at `I + k` (R182). -/
def State.dataAddr (s : State) : Nat := s.index.toNat

/-- The decimal digits of a byte, hundreds, tens, ones (R184). -/
def bcdDigits (b : Byte) : List Byte :=
  [BitVec.ofNat 8 (b.toNat / 100), BitVec.ofNat 8 (b.toNat / 10 % 10), BitVec.ofNat 8 (b.toNat % 10)]

end Sys2Proof.Machine
end

