-- ==== Sys2Proof/Machine/Control.lean ====
section
/-! DEFINITION. Control transfer (41_control.md). Each of these writes `PC` itself and takes no default advance (R93). -/

namespace Sys2Proof.Machine

/-- `1NNN`, JP (R121). -/
def execJp (nnn : Addr) (s : State) : Host.Outcome State Fault Refusal :=
  .next (s.setPc (addrWord nnn))

/-- `2NNN`, CALL (R122): the value pushed is `PC + 2`, the return address (C6, D5). -/
def execCall (nnn : Addr) (s : State) : Host.Outcome State Fault Refusal :=
  s.settle ((s.push (s.pc + 2)).map fun t => t.setPc (addrWord nnn))

/-- `00EE`, RET (R123). -/
def execRet (s : State) : Host.Outcome State Fault Refusal :=
  s.settle (s.pop.map fun p => p.2.setPc p.1)

/-- `BNNN`, JP_V0 (R127). -/
def execJpV0 (nnn : Addr) (s : State) : Host.Outcome State Fault Refusal :=
  .next (s.setPc (jumpTarget nnn (s.reg 0)))

/-- `3XNN`, SE_IMM (R124). -/
def execSeImm (x : Reg) (nn : Byte) (s : State) : Host.Outcome State Fault Refusal :=
  .next (s.skipIf (s.reg x == nn))

/-- `4XNN`, SNE_IMM (R125). -/
def execSneImm (x : Reg) (nn : Byte) (s : State) : Host.Outcome State Fault Refusal :=
  .next (s.skipIf (s.reg x != nn))

/-- `5XY0`, SE_REG (R126). -/
def execSeReg (x y : Reg) (s : State) : Host.Outcome State Fault Refusal :=
  .next (s.skipIf (s.reg x == s.reg y))

/-- `9XY0`, SNE_REG (R128). -/
def execSneReg (x y : Reg) (s : State) : Host.Outcome State Fault Refusal :=
  .next (s.skipIf (s.reg x != s.reg y))

end Sys2Proof.Machine
end

