-- ==== Sys2Proof/Machine/Display.lean ====
section
/-! DEFINITION. The display instructions (40_display.md). -/

namespace Sys2Proof.Machine

/-- `00E0`, CLS (R100): every pixel clear, and the clear command to the Display. -/
def execCls (s : State) : Host.Outcome State Fault Refusal :=
  .next ((s.setFb Framebuffer.clear).emit .fbClear).advance

/-- The draw of `DXYN` (R102): the operands are read first, then the sprite; `VF` is written last. -/
def State.draw (s : State) (x y : Reg) (n : BitVec 4) : Except Error State :=
  (s.readBytes s.dataAddr n.toNat).map fun rows =>
    let c := blit (s.reg x).toNat (s.reg y).toNat rows ⟨s.fb, false⟩
    (s.setFb c.fb).setReg vf (flagByte c.collide)

/-- `DXYN`, DRW (R102). -/
def execDrw (x y : Reg) (n : BitVec 4) (s : State) : Host.Outcome State Fault Refusal :=
  s.settle ((s.draw x y n).map State.advance)

end Sys2Proof.Machine
end

