-- ==== Sys2Proof/Machine/IndexMemory.lean ====
section
/-! DEFINITION. Index register and memory transfer (43_index_memory.md). No access changes `I` (R182). -/

namespace Sys2Proof.Machine

/-- `ANNN`, LD_I (R180). -/
def execLdI (nnn : Addr) (s : State) : Host.Outcome State Fault Refusal :=
  .next (s.setIndex (addrWord nnn)).advance

/-- `FX1E`, ADD_I_VX (R181): modulo 2^16, no flag, no fault. -/
def execAddIVx (x : Reg) (s : State) : Host.Outcome State Fault Refusal :=
  .next (s.setIndex (s.index + (s.reg x).setWidth 16)).advance

/-- `FX29`, LD_F_VX (R183). -/
def execLdFVx (x : Reg) (s : State) : Host.Outcome State Fault Refusal :=
  .next (s.setIndex (glyphAddr (s.reg x))).advance

/-- `FX33`, LD_B_VX (R184). -/
def execLdBVx (x : Reg) (s : State) : Host.Outcome State Fault Refusal :=
  s.settle ((s.writeBytes s.dataAddr (bcdDigits (s.reg x))).map State.advance)

/-- `FX55`, LD_MEM_VX (R185). -/
def execLdMemVx (x : Reg) (s : State) : Host.Outcome State Fault Refusal :=
  s.settle ((s.writeBytes s.dataAddr (s.regsUpTo x)).map State.advance)

/-- `FX65`, LD_VX_MEM (R186). -/
def execLdVxMem (x : Reg) (s : State) : Host.Outcome State Fault Refusal :=
  s.settle ((s.readBytes s.dataAddr (x.toNat + 1)).map fun bs => (s.setRegsFrom 0 bs).advance)

end Sys2Proof.Machine
end

