-- ==== Sys2Proof/Machine/KeysTimers.lean ====
section
/-! DEFINITION. Keyboard and timer instructions (44_keys_timers.md). -/

namespace Sys2Proof.Machine

/-- `EX9E`, SKP (R200): the query is made with `V[x]`, whatever its value (R203). -/
def execSkp (x : Reg) (s : State) : Host.Outcome State Fault Refusal :=
  .next (s.drawn.skipIf (s.keyDown (s.reg x)))

/-- `EXA1`, SKNP (R201). -/
def execSknp (x : Reg) (s : State) : Host.Outcome State Fault Refusal :=
  .next (s.drawn.skipIf (!s.keyDown (s.reg x)))

/-- `FX07`, LD_VX_DT (R202). -/
def execLdVxDt (x : Reg) (s : State) : Host.Outcome State Fault Refusal :=
  .next (s.setReg x s.dt).advance

/-- `FX0A`, LD_VX_K (R204): `PC` stays at this instruction; the cycles that follow poll (R205). -/
def execLdVxK (x : Reg) (s : State) : Host.Outcome State Fault Refusal :=
  .next (s.setRun (.awaitingKey x))

/-- `FX15`, LD_DT_VX (R206). -/
def execLdDtVx (x : Reg) (s : State) : Host.Outcome State Fault Refusal :=
  .next (s.setDt (s.reg x)).advance

/-- `FX18`, LD_ST_VX (R207). -/
def execLdStVx (x : Reg) (s : State) : Host.Outcome State Fault Refusal :=
  .next (s.setSt (s.reg x)).advance

end Sys2Proof.Machine
end

