-- ==== Sys2Proof/Machine/Cycle.lean ====
section
/-! DEFINITION. The execution cycle (30_encoding.md R90 to R95) and the handling of one event (00_scope.md R13). -/

namespace Sys2Proof.Machine

/-- Fetch, decode and execute one instruction (R90 to R92). -/
def runInstruction (s : State) : Host.Outcome State Fault Refusal :=
  match s.fetch with
  | .error e => .next (s.raise e)
  | .ok w =>
    match decodeWord w with
    | .error _ => .next (s.raise (.invalidOpcode w s.pc))
    | .ok i => exec i s

/-- One `cycle` event, according to the run state (R90, R95, R205). -/
def cycle (s : State) : Host.Outcome State Fault Refusal :=
  match s.run with
  | .halted _ => .next s
  | .awaitingKey x => .next (s.awaitKeyPoll x)
  | .running => runInstruction s

/-- One event, handled completely (R12, R13). -/
def handle (e : Event) (s : State) : Host.Outcome State Fault Refusal :=
  match e with
  | .cycle => cycle s
  | .tick => .next s.tick
  | .rst => .next s.rst
  | .load img => .next (s.loadImage img)

/-- Handle the event the environment issues next. -/
def nextEvent (s : State) : Host.Outcome State Fault Refusal := handle s.nextInput s.issued

end Sys2Proof.Machine
end

