-- ==== Sys2Proof/Machine/Step.lean ====
section
/-! DEFINITION. The step: one event of the block (00_scope.md R13), and where the next instruction is fetched. -/

namespace Sys2Proof.Machine

/-- One step: one event. -/
def step (s : State) : Host.Outcome State Fault Refusal := nextEvent s

/-- `s` with the instruction of the opcode table's bits stored where the next step fetches it, so that the next step
runs it (log 13). -/
def State.withFetchWord (s : State) (nbits w : Nat) : State := s.withWord (tableWord nbits w)

end Sys2Proof.Machine
end

