-- ==== Sys2Proof/Safety.lean ====
section
/-! DEFINITION. The terms claims are stated in: which part of the state a transition keeps (00_scope.md R8), what a safe
state is, and the invariant that every step keeps. -/

namespace Sys2Proof.Machine

/-- The parts of the state, one for each field of `State`. -/
inductive Part where
  | regs | index | pc | stack | dt | st | fb | mem | run | image | draws | answers | schedule | pulses
  deriving DecidableEq, Repr

/-- The part is the same in `t` as in `s`: every register, every byte of memory, every pixel (R8). -/
def Kept (p : Part) (s t : State) : Prop :=
  match p with
  | .regs => ∀ r, t.reg r = s.reg r
  | .index => t.index = s.index
  | .pc => t.pc = s.pc
  | .stack => t.stack = s.stack
  | .dt => t.dt = s.dt
  | .st => t.st = s.st
  | .fb => ∀ x y, t.fb.pixel x y = s.fb.pixel x y
  | .mem => ∀ a, t.byte a = s.byte a
  | .run => t.run = s.run
  | .image => t.image = s.image
  | .draws => t.draws = s.draws
  | .answers => t.answers = s.answers
  | .schedule => t.schedule = s.schedule
  | .pulses => t.pulses = s.pulses

/-- Every part but those listed is kept: the frame of a transition from `s` to `t` (R8). -/
def OnlyChanges (parts : List Part) (s t : State) : Prop := ∀ p, p ∉ parts → Kept p s t

/-- The next event is a cycle: the environment's list says so, or is at its end (R236). -/
def State.CycleNext (s : State) : Prop := s.schedule = [] ∨ ∃ rest, s.schedule = .cycle :: rest

/-- Every register but those listed is kept. -/
def RegsKeptBut (written : List Reg) (s t : State) : Prop := ∀ r, r ∉ written → t.reg r = s.reg r

/-- Every byte of memory outside the `n` bytes from `a` on is kept. -/
def BytesKeptBut (a n : Nat) (s t : State) : Prop := ∀ b, b < a ∨ a + n ≤ b → t.byte b = s.byte b

/-- Some set bit of the sprite falls on the pixel: byte `i` is row `i`, bit `7 - j` is column `j`, the column modulo 64 and
the row modulo 32 (R101, R102). -/
def SpriteCovers (x0 y0 : Nat) (rows : List Byte) (x : Fin 64) (y : Fin 32) : Prop :=
  ∃ i j, i < rows.length ∧ j < 8 ∧ (rows.getD i 0).getLsbD (7 - j) = true ∧
    x.val = (x0 + j) % 64 ∧ y.val = (y0 + i) % 32

/-- The sprite of `DXYN`: the `n` bytes of memory from `I` on (R101). -/
def State.sprite (s : State) (n : Nat) : List Byte := (List.range n).map fun k => s.byte (s.index.toNat + k)

/-- The instructions that may write `VF`: those that write it as a flag, and those that name it as their destination
(10_state.md R24). -/
def mayWriteVf : Instr → Bool
  | .addReg _ _ | .sub _ _ | .shr _ _ | .subn _ _ | .shl _ _ | .drw _ _ _ => true
  | .ldImm x _ | .addImm x _ | .rnd x _ => x == vf
  | .ldReg x _ | .orReg x _ | .andReg x _ | .xorReg x _ => x == vf
  | .ldVxDt x | .ldVxMem x => x == vf
  | .cls | .ret | .jp _ | .call _ | .ldI _ | .jpV0 _ => false
  | .seImm _ _ | .sneImm _ _ | .seReg _ _ | .sneReg _ _ | .skp _ | .sknp _ => false
  | .ldVxK _ | .ldDtVx _ | .ldStVx _ | .addIVx _ | .ldFVx _ | .ldBVx _ | .ldMemVx _ => false

/-- The error an instruction can raise in its execute phase, in the state it executes in (60_exceptions.md R220). -/
def canRaise (s : State) : Instr → Error → Prop
  | .call _, e => e = .stackOverflow s.pc
  | .ret, e => e = .stackUnderflow s.pc
  | .drw _ _ _, e | .ldBVx _, e | .ldMemVx _, e | .ldVxMem _, e => e = .outOfBounds (max s.index.toNat 4096) s.pc
  | _, _ => False

/-- The engine has not met an error: a safe state (R221). -/
def State.Safe (s : State) : Prop := ∀ e, s.run ≠ .halted e

/-- What every step keeps: the memory's canonical form, the stack's bound (R30), return addresses and `PC` within the
largest value a rule can write (R28), and `PC` at an instruction while it waits for a key (R204). -/
structure State.Inv (s : State) : Prop where
  memWf : s.mem.wf = true
  stackFits : s.stack.length ≤ stackDepth
  returnsLow : ∀ w ∈ s.stack, w.toNat ≤ 4096
  pcLow : s.pc.toNat ≤ 0x10FE
  waitLow : ∀ x, s.run = .awaitingKey x → s.pc.toNat ≤ 4094

end Sys2Proof.Machine
end

