-- ==== Sys2Proof/Certificates/Slice0/Obligations.lean ====
section
/-! DEFINITION. The statements for the provers. Each says what the spec's rules say an instruction or the machine does, in
the terms of Sys2Proof/Safety.lean. -/

open Sys2Proof Sys2Proof.Machine

/-! ### Reset, load, events -/

/-- What reset leaves (10_state.md section 11). `PC`, stack, timers and framebuffer are the source's; `V`, `I` and the
cells outside the font are the spec's decision D2 (logs 7, 8), the font bytes are its D3 (log 6). -/
def Obligations.ResetLeavesTheListedValues : Prop :=
  State.reset.pc = 512 ∧ State.reset.stack = [] ∧ State.reset.dt = 0 ∧ State.reset.st = 0 ∧
  (∀ x y, State.reset.fb.pixel x y = false) ∧ State.reset.run = .running ∧ State.reset.tone = false ∧
  (∀ r, State.reset.reg r = 0) ∧ State.reset.index = 0 ∧
  ∀ a, State.reset.byte a = Config.font.toList.getD a 0

/-- An `rst` in any run state puts every piece of state at its reset value, with the last image loaded again, and stays
halted only where that image's program does not fit (R260; the spec's decision D25, log 12). -/
def Obligations.RstRestoresEveryResetValue : Prop :=
  ∀ (s : State) (rest : List Event), s.schedule = .rst :: rest →
    ∃ t, step s = .next t ∧
      t.pc = 512 ∧ t.index = 0 ∧ (∀ r, t.reg r = 0) ∧ t.stack = [] ∧ t.dt = 0 ∧ t.st = 0 ∧
      (∀ x y, t.fb.pixel x y = false) ∧
      t.image = s.image ∧ t.schedule = rest ∧ t.draws = s.draws ∧ t.answers = s.answers ∧ t.pulses = s.pulses ∧
      (512 + s.image.prog.length ≤ 4096 →
        t.run = .running ∧
        ∀ a, t.byte a =
          if a < 512 then s.image.font.toList.getD a 0 else s.image.prog.getD (a - 512) 0) ∧
      (4096 < 512 + s.image.prog.length →
        t.run = .halted (.romTooLarge s.image.prog.length) ∧
        ∀ a, t.byte a = s.image.font.toList.getD a 0)

/-- A `load` whose program fits, into an engine that is not halted: font at 0, program at 512, every other cell 0, and the
rest at its reset values (R265; the zero fill is the spec's decision D2; a load at another time than before the first
cycle is the model's choice, log 12). -/
def Obligations.LoadPlacesFontAndProgram : Prop :=
  ∀ (s : State) (img : Image) (rest : List Event), s.schedule = .load img :: rest → s.Safe →
    512 + img.prog.length ≤ 4096 →
    ∃ t, step s = .next t ∧ t.run = .running ∧ t.loadStatus = .ok ∧ t.image = img ∧ t.schedule = rest ∧
      t.pc = 512 ∧ t.index = 0 ∧ (∀ r, t.reg r = 0) ∧ t.stack = [] ∧ t.dt = 0 ∧ t.st = 0 ∧
      (∀ x y, t.fb.pixel x y = false) ∧
      ∀ a, t.byte a = if a < 512 then img.font.toList.getD a 0 else img.prog.getD (a - 512) 0

/-- A `load` whose program does not fit halts the engine with RomTooLarge, and no cell from 80 on is written (R226, R65;
the spec's decision D27; the font of the same event is written: log 12). -/
def Obligations.LoadThatDoesNotFitHalts : Prop :=
  ∀ (s : State) (img : Image) (rest : List Event), s.schedule = .load img :: rest →
    4096 < 512 + img.prog.length →
    ∃ t, step s = .next t ∧ t.run = .halted (.romTooLarge img.prog.length) ∧ t.loadStatus = .romTooLarge ∧
      t.image = img ∧ t.schedule = rest ∧ (∀ a, a < 80 → t.byte a = img.font.toList.getD a 0) ∧
      (∀ a, 80 ≤ a → t.byte a = s.byte a) ∧ OnlyChanges [.run, .mem, .image, .schedule] s t

/-- One tick, in every run state: both timers count down by 1 and stop at 0, a redraw is sent, nothing else changes
(R231; that a tick counts down in Halted too is the spec's decision D16, log 21). -/
def Obligations.TickCountsDownBothTimers : Prop :=
  ∀ (s : State) (rest : List Event), s.schedule = .tick :: rest →
    ∃ t, step s = .next t ∧ t.dt.toNat = s.dt.toNat - 1 ∧ t.st.toNat = s.st.toNat - 1 ∧
      t.pulses = s.pulses ++ [.redraw] ∧ t.schedule = rest ∧ OnlyChanges [.dt, .st, .pulses, .schedule] s t

/-- After `k` ticks with nothing between them a timer that started at `d` holds max(d - k, 0) (R235, derived there from
R231), and the tone sounds exactly while the sound timer is above 0 (R232). In Halted the count and the tone are the spec's decision
D16 (log 21). -/
def Obligations.TicksCountDownToZeroAndStay : Prop :=
  ∀ (k : Nat) (s : State) (rest : List Event), s.schedule = List.replicate k .tick ++ rest →
    ∃ t : State, Host.Core.run Sys2Proof.core k s = .next t ∧ t.dt.toNat = s.dt.toNat - k ∧
      t.st.toNat = s.st.toNat - k ∧ (t.tone = true ↔ k < s.st.toNat) ∧
      t.pulses = s.pulses ++ List.replicate k .redraw ∧ t.schedule = rest ∧
      OnlyChanges [.dt, .st, .pulses, .schedule] s t

/-! ### Encoding -/

/-- The six fields of every word, as numbers (R71). -/
def Obligations.FieldsOfEveryWord : Prop :=
  ∀ w : Word, (fieldG w).toNat = w.toNat / 4096 ∧ (fieldX w).toNat = w.toNat / 256 % 16 ∧
    (fieldY w).toNat = w.toNat / 16 % 16 ∧ (fieldN w).toNat = w.toNat % 16 ∧
    (fieldNN w).toNat = w.toNat % 256 ∧ (fieldNNN w).toNat = w.toNat % 4096

/-- Decoding the bytes of any instruction's encoding gives that instruction, with every operand at every value, and the
bytes after it (R70 to R73, R80). -/
def Obligations.DecodingAnEncodingGivesItBack : Prop :=
  ∀ (i : Instr) (rest : List Byte), decode (bytesOfWord (encode i) ++ rest) = .ok (i, rest)

/-- A word that decodes is the encoding of what it decodes to, so no two instructions share a word and no bit of a word is
ignored by the decoder (R80, R84). -/
def Obligations.EncodingADecodingGivesItBack : Prop :=
  ∀ (w : Word) (i : Instr), decodeWord w = .ok i → encode i = w

/-- The decoder accepts exactly the words that fit a row of the opcode table (R80, R84). -/
def Obligations.DecoderAcceptsExactlyTheTable : Prop :=
  ∀ w : Word, (∃ i, decodeWord w = .ok i) ↔ wordLegal w = true

/-- No word fits two rows of the opcode table: one handler per word (R84, R85). -/
def Obligations.TableRowsNeverOverlap : Prop :=
  ∀ (w : Word) (r q : OpcodeRow), r ∈ opcodeRows → q ∈ opcodeRows → r.fits w = true → q.fits w = true → r = q

/-- Words written out from the spec's encodings and vectors decode to the instructions they stand for, and the illegal words
of 95_test_vectors.md section 2.1 are refused by name. That 0x0123 and 0x9AB1 are illegal are the spec's decisions D10 and
D11 (log 20). -/
def Obligations.WordsOfTheSpecDecode : Prop :=
  decodeWord 0x00E0 = .ok .cls ∧ decodeWord 0x00EE = .ok .ret ∧ decodeWord 0x1ABC = .ok (.jp 0xABC) ∧
  decodeWord 0x3A05 = .ok (.seImm 0xA 0x05) ∧ decodeWord 0x8134 = .ok (.addReg 1 3) ∧
  decodeWord 0x80FE = .ok (.shl 0 0xF) ∧ decodeWord 0xD015 = .ok (.drw 0 1 5) ∧
  decodeWord 0xE1A1 = .ok (.sknp 1) ∧ decodeWord 0xF30A = .ok (.ldVxK 3) ∧ decodeWord 0xF265 = .ok (.ldVxMem 2) ∧
  decodeWord 0x0123 = .error .group0 ∧ decodeWord 0x5AAA = .error .group5 ∧ decodeWord 0x8008 = .error .group8 ∧
  decodeWord 0x9AB1 = .error .group9 ∧ decodeWord 0xE19F = .error .groupE ∧ decodeWord 0xFFFF = .error .groupF

/-! ### The cycle -/

/-- When the bytes at `PC` decode to `i` and a cycle is the next event, a step of the running engine is `exec i`, on the state
whose list of events to come has lost that cycle (R90; the list is the model's, log 1). -/
def Obligations.StepRunsTheDecodedInstruction : Prop :=
  ∀ (s : State) (i : Instr), s.run = .running → s.pc.toNat + 2 ≤ 4096 →
    decode [s.byte s.pc.toNat, s.byte (s.pc.toNat + 1)] = .ok (i, []) →
    (s.schedule = [] → step s = exec i s) ∧
    ∀ rest, s.schedule = .cycle :: rest → step s = exec i { s with schedule := rest }

/-- A cycle at an illegal word raises InvalidOpcode of that word, with `PC` unchanged, and the engine halts (R92). -/
def Obligations.IllegalWordHalts : Prop :=
  ∀ (s : State) (w : Word), s.CycleNext → s.run = .running → s.pc.toNat + 2 ≤ 4096 →
    w = s.byte s.pc.toNat ++ s.byte (s.pc.toNat + 1) → wordLegal w = false →
    ∃ t, step s = .next t ∧ t.run = .halted (.invalidOpcode w s.pc) ∧ OnlyChanges [.run, .schedule] s t

/-- A cycle with `PC` at 4095 or above raises OutOfBounds of the lowest failing address, and nothing else changes (R91,
derived there; the exact addresses are the spec's decision D7, log 16). -/
def Obligations.FetchOutsideMemoryHalts : Prop :=
  ∀ s : State, s.CycleNext → s.run = .running → 4095 ≤ s.pc.toNat →
    ∃ t, step s = .next t ∧
      t.run = .halted (.outOfBounds (if s.pc.toNat = 4095 then 4096 else s.pc.toNat) s.pc) ∧
      OnlyChanges [.run, .schedule] s t

/-- In the halted state a cycle changes no state of the machine, and only `rst` leaves that state (R41, R95). -/
def Obligations.HaltedIsLeftOnlyByReset : Prop :=
  ∀ (s : State) (e : Error), s.run = .halted e →
    (s.CycleNext → ∃ t, step s = .next t ∧ OnlyChanges [.schedule] s t) ∧
    ∀ t, step s = .next t → t.Safe → ∃ rest, s.schedule = .rst :: rest

/-- A cycle while the engine awaits a key polls once: no answer changes nothing, a key `k` puts `k` into the register, moves
past the FX0A and runs on (R205; the protocol is the spec's decision D13, log 25). -/
def Obligations.KeyPollWaitsOrTakesTheKey : Prop :=
  ∀ (s : State) (x : Reg), s.CycleNext → s.run = .awaitingKey x →
    ∃ t, step s = .next t ∧ t.draws = s.draws + 1 ∧
      match s.keyEvent with
      | none => OnlyChanges [.draws, .answers, .schedule] s t
      | some k => (t.reg x).toNat = k.toNat ∧ t.pc = s.pc + 2 ∧ t.run = .running ∧ RegsKeptBut [x] s t ∧
          OnlyChanges [.regs, .pc, .run, .draws, .answers, .schedule] s t

/-- Every step answers a next state: no fault and no refusal, in any state (R221, R225; errors are states, log 9). -/
def Obligations.EveryStepAnswersANextState : Prop := ∀ s : State, ∃ t, step s = .next t

/-! ### Whole-machine rules -/

/-- Every step keeps the invariant: canonical memory, a stack within STACK_DEPTH, return addresses at most 4096, `PC` at most
0x10FE so that it never wraps (R28, R30), and `PC` fetchable while waiting for a key. -/
def Obligations.EveryStepKeepsTheInvariant : Prop := ∀ s t : State, s.Inv → step s = .next t → t.Inv

/-- The state after reset meets the invariant. -/
def Obligations.ResetMeetsTheInvariant : Prop := State.reset.Inv

/-- Two memories in canonical form that read the same at every address of the space are the same data (the model's own form,
over 20_memory.md R50). -/
def Obligations.CanonicalMemoryIsUnique : Prop :=
  ∀ m n : Memory, m.wf = true → n.wf = true → (∀ a, a < 4096 → m.read a = n.read a) → m = n

/-- Over all instructions: the stack changes only by CALL and RET, `I` only by ANNN, FX1E and FX29, `DT` only by FX15, `ST`
only by FX18 (R29, R33, R34, R35). -/
def Obligations.SpecialRegistersHaveTheirWriters : Prop :=
  ∀ (i : Instr) (s t : State), exec i s = .next t →
    (t.stack ≠ s.stack → (∃ n, i = .call n) ∨ i = .ret) ∧
    (t.index ≠ s.index → (∃ n, i = .ldI n) ∨ (∃ x, i = .addIVx x) ∨ ∃ x, i = .ldFVx x) ∧
    (t.dt ≠ s.dt → ∃ x, i = .ldDtVx x) ∧ (t.st ≠ s.st → ∃ x, i = .ldStVx x)

/-- Over all instructions: a pixel changes only by DXYN and 00E0 (R36), a byte of memory only by FX33 and FX55 (R55). -/
def Obligations.PixelsAndMemoryHaveTheirWriters : Prop :=
  ∀ (i : Instr) (s t : State), exec i s = .next t →
    ((∃ x y, t.fb.pixel x y ≠ s.fb.pixel x y) → i = .cls ∨ ∃ x y n, i = .drw x y n) ∧
    ((∃ a, t.byte a ≠ s.byte a) → (∃ x, i = .ldBVx x) ∨ ∃ x, i = .ldMemVx x)

/-- Over all instructions: `VF` changes only by the six flag-writing instructions and by those that name it as their
destination register (R24). -/
def Obligations.VfHasItsWriters : Prop :=
  ∀ (i : Instr) (s t : State), exec i s = .next t → t.reg vf ≠ s.reg vf → mayWriteVf i = true

/-- Over all instructions: the run state changes only by FX0A, which waits, or by an error of the kind R220 names for the
instruction, and then nothing else has changed: errors are precise (R220, R223; the spec's decision D8, log 9). -/
def Obligations.ErrorsArePreciseAndOfTheNamedKind : Prop :=
  ∀ (i : Instr) (s t : State), exec i s = .next t → t.run ≠ s.run →
    (∃ x, i = .ldVxK x ∧ t.run = .awaitingKey x) ∨
    ∃ e, t.run = .halted e ∧ canRaise s i e ∧ OnlyChanges [.run] s t

/-- What an instruction or an event does to the block depends on the block's own record and on the answers the environment
gives, and for `rst` on the loader's image, and on nothing else the model carries: the record is the whole state of the block
(10_state.md sections 1 and 9; the model's environment beside it is log 35). -/
def Obligations.BlockDependsOnItsRecordAndTheAnswersAlone : Prop :=
  ∀ s s' : State, s.toBlock = s'.toBlock → s.rand8 = s'.rand8 → (∀ k, s.keyDown k = s'.keyDown k) →
    (∀ i : Instr, ∃ t t', exec i s = .next t ∧ exec i s' = .next t' ∧ t.toBlock = t'.toBlock) ∧
    ∀ e : Event, (e = .cycle → s.keyEvent = s'.keyEvent) → (e = .rst → s.image = s'.image) →
      ∃ t t', handle e s = .next t ∧ handle e s' = .next t' ∧ t.toBlock = t'.toBlock

/-! ### Display -/

/-- `00E0` clears every pixel and sends the clear command (R100). -/
def Obligations.ClsClearsEveryPixel : Prop :=
  decodeWord 0x00E0 = .ok .cls ∧
  ∀ s : State, ∃ t, exec .cls s = .next t ∧ (∀ x y, t.fb.pixel x y = false) ∧ t.pulses = s.pulses ++ [.fbClear] ∧
    t.pc = s.pc + 2 ∧ OnlyChanges [.fb, .pulses, .pc] s t

/-- `DXYN` flips exactly the pixels a set sprite bit falls on, with wrap-around, and sets `VF` to 1 if one of them was set, else
to 0; a sprite that leaves the memory halts the engine and changes nothing else (R101, R102). -/
def Obligations.DrwDrawsTheSprite : Prop :=
  ∀ (x y : Reg) (n : BitVec 4), decodeWord (wordXYN 0xD000 x y n) = .ok (.drw x y n) ∧
  ∀ s : State,
    (n.toNat = 0 ∨ s.index.toNat + n.toNat ≤ 4096 →
      ∃ t, exec (.drw x y n) s = .next t ∧
        (∀ c r, SpriteCovers (s.reg x).toNat (s.reg y).toNat (s.sprite n.toNat) c r →
          t.fb.pixel c r = !s.fb.pixel c r) ∧
        (∀ c r, ¬SpriteCovers (s.reg x).toNat (s.reg y).toNat (s.sprite n.toNat) c r →
          t.fb.pixel c r = s.fb.pixel c r) ∧
        ((∃ c r, SpriteCovers (s.reg x).toNat (s.reg y).toNat (s.sprite n.toNat) c r ∧ s.fb.pixel c r = true) →
          t.reg vf = 1) ∧
        ((∀ c r, SpriteCovers (s.reg x).toNat (s.reg y).toNat (s.sprite n.toNat) c r → s.fb.pixel c r = false) →
          t.reg vf = 0) ∧
        t.pc = s.pc + 2 ∧ RegsKeptBut [vf] s t ∧ OnlyChanges [.regs, .fb, .pc] s t) ∧
    (n.toNat ≠ 0 → 4096 < s.index.toNat + n.toNat →
      ∃ t, exec (.drw x y n) s = .next t ∧ t.run = .halted (.outOfBounds (max s.index.toNat 4096) s.pc) ∧
        OnlyChanges [.run] s t)

/-- Drawing the same sprite twice at the same place restores the framebuffer; the first draw returns `VF` = 0 if none of its
pixels was set, the second `VF` = 1 if the sprite has a set bit (R104, derived there from R102). -/
def Obligations.DrawingTwiceRestoresTheFramebuffer : Prop :=
  ∀ (x y : Reg) (n : BitVec 4) (s t u : State), x ≠ vf → y ≠ vf → s.index.toNat + n.toNat ≤ 4096 →
    exec (.drw x y n) s = .next t → exec (.drw x y n) t = .next u →
    u.fb = s.fb ∧
    ((∃ i, i < n.toNat ∧ s.byte (s.index.toNat + i) ≠ 0) →
      (∀ c r, s.fb.pixel c r = false) → t.reg vf = 0 ∧ u.reg vf = 1)

/-! ### Control transfer -/

/-- `1NNN` sets `PC` to NNN, for every NNN (R121). -/
def Obligations.JpSetsThePc : Prop :=
  ∀ nnn : Addr, decodeWord (wordA 0x1000 nnn) = .ok (.jp nnn) ∧
  ∀ s : State, ∃ t, exec (.jp nnn) s = .next t ∧ t.pc.toNat = nnn.toNat ∧ OnlyChanges [.pc] s t

/-- `BNNN` sets `PC` to the exact sum of NNN and `V0` (R127, R73). -/
def Obligations.JpV0AddsV0ToTheTarget : Prop :=
  ∀ nnn : Addr, decodeWord (wordA 0xB000 nnn) = .ok (.jpV0 nnn) ∧
  ∀ s : State, ∃ t, exec (.jpV0 nnn) s = .next t ∧ t.pc.toNat = nnn.toNat + (s.reg 0).toNat ∧
    OnlyChanges [.pc] s t

/-- `2NNN` pushes the address after the call and jumps; with a full stack it halts the engine and changes nothing else (R122;
that `PC + 2` is pushed is the spec's decision D5, log 17, and that nothing else changes on the error its D8, log 9). -/
def Obligations.CallPushesTheReturnAddress : Prop :=
  ∀ nnn : Addr, decodeWord (wordA 0x2000 nnn) = .ok (.call nnn) ∧ 16 ≤ stackDepth ∧
  ∀ s : State,
    (s.stack.length < stackDepth →
      ∃ t, exec (.call nnn) s = .next t ∧ t.stack = s.stack ++ [s.pc + 2] ∧ t.pc.toNat = nnn.toNat ∧
        OnlyChanges [.stack, .pc] s t) ∧
    (s.stack.length = stackDepth →
      ∃ t, exec (.call nnn) s = .next t ∧ t.run = .halted (.stackOverflow s.pc) ∧ OnlyChanges [.run] s t)

/-- `00EE` pops the top of the stack into `PC`, adding nothing; on an empty stack it halts the engine and changes nothing else
(R123; that nothing is added is the spec's decision D5, log 17, and that nothing else changes on the error its D8, log 9). -/
def Obligations.RetPopsIntoThePc : Prop :=
  decodeWord 0x00EE = .ok .ret ∧
  ∀ s : State,
    (∀ xs w, s.stack = xs ++ [w] →
      ∃ t, exec .ret s = .next t ∧ t.stack = xs ∧ t.pc = w ∧ OnlyChanges [.stack, .pc] s t) ∧
    (s.stack = [] →
      ∃ t, exec .ret s = .next t ∧ t.run = .halted (.stackUnderflow s.pc) ∧ OnlyChanges [.run] s t)

/-- A return right after a call comes back to the instruction after the call, and leaves everything else as it was (R122, R123;
decision D5, log 17). -/
def Obligations.ReturnUndoesTheCall : Prop :=
  ∀ (nnn : Addr) (s t : State), s.stack.length < stackDepth → exec (.call nnn) s = .next t →
    ∃ u, exec .ret t = .next u ∧ u.pc = s.pc + 2 ∧ OnlyChanges [.pc] s u

/-- `3XNN` and `4XNN` skip the next instruction on equality and on inequality with the byte (R124, R125, R120). -/
def Obligations.SkipsOnAByte : Prop :=
  ∀ (x : Reg) (nn : Byte),
  decodeWord (wordXB 0x3000 x nn) = .ok (.seImm x nn) ∧ decodeWord (wordXB 0x4000 x nn) = .ok (.sneImm x nn) ∧
  ∀ s : State,
    (∃ t, exec (.seImm x nn) s = .next t ∧
      ((s.reg x).toNat = nn.toNat → t.pc = s.pc + 4) ∧ ((s.reg x).toNat ≠ nn.toNat → t.pc = s.pc + 2) ∧
      OnlyChanges [.pc] s t) ∧
    (∃ t, exec (.sneImm x nn) s = .next t ∧
      ((s.reg x).toNat ≠ nn.toNat → t.pc = s.pc + 4) ∧ ((s.reg x).toNat = nn.toNat → t.pc = s.pc + 2) ∧
      OnlyChanges [.pc] s t)

/-- `5XY0` skips the next instruction if the registers are equal; `5XYN` with N not 0 is no instruction (R126). -/
def Obligations.SeRegSkipsOnEqualRegisters : Prop :=
  ∀ x y : Reg, decodeWord (wordXY 0x5000 x y) = .ok (.seReg x y) ∧
  (∀ n : BitVec 4, n ≠ 0 → decodeWord (wordXYN 0x5000 x y n) = .error .group5) ∧
  ∀ s : State, ∃ t, exec (.seReg x y) s = .next t ∧
    ((s.reg x).toNat = (s.reg y).toNat → t.pc = s.pc + 4) ∧
    ((s.reg x).toNat ≠ (s.reg y).toNat → t.pc = s.pc + 2) ∧ OnlyChanges [.pc] s t

/-- `9XY0` skips the next instruction if the registers differ; that `9XYN` with N not 0 is no instruction is the spec's
decision D11 (R128, log 20). -/
def Obligations.SneRegSkipsOnUnequalRegisters : Prop :=
  ∀ x y : Reg, decodeWord (wordXY 0x9000 x y) = .ok (.sneReg x y) ∧
  (∀ n : BitVec 4, n ≠ 0 → decodeWord (wordXYN 0x9000 x y n) = .error .group9) ∧
  ∀ s : State, ∃ t, exec (.sneReg x y) s = .next t ∧
    ((s.reg x).toNat ≠ (s.reg y).toNat → t.pc = s.pc + 4) ∧
    ((s.reg x).toNat = (s.reg y).toNat → t.pc = s.pc + 2) ∧ OnlyChanges [.pc] s t

/-! ### Arithmetic and logic -/

/-- `6XNN` loads the byte (R152); `7XNN` adds it modulo 256 and writes no flag (R154). -/
def Obligations.ImmediateLoadAndAdd : Prop :=
  ∀ (x : Reg) (nn : Byte),
  decodeWord (wordXB 0x6000 x nn) = .ok (.ldImm x nn) ∧ decodeWord (wordXB 0x7000 x nn) = .ok (.addImm x nn) ∧
  ∀ s : State,
    (∃ t, exec (.ldImm x nn) s = .next t ∧ t.reg x = nn ∧ t.pc = s.pc + 2 ∧ RegsKeptBut [x] s t ∧
      OnlyChanges [.regs, .pc] s t) ∧
    (∃ t, exec (.addImm x nn) s = .next t ∧ (t.reg x).toNat = ((s.reg x).toNat + nn.toNat) % 256 ∧
      t.pc = s.pc + 2 ∧ RegsKeptBut [x] s t ∧ OnlyChanges [.regs, .pc] s t)

/-- `8XY0` copies a register and writes no flag (R153). -/
def Obligations.LdRegCopiesARegister : Prop :=
  ∀ x y : Reg, decodeWord (wordXY 0x8000 x y) = .ok (.ldReg x y) ∧
  ∀ s : State, ∃ t, exec (.ldReg x y) s = .next t ∧ t.reg x = s.reg y ∧ t.pc = s.pc + 2 ∧
    RegsKeptBut [x] s t ∧ OnlyChanges [.regs, .pc] s t

/-- `8XY1`, `8XY2` and `8XY3` combine two registers bit by bit and leave `VF` alone (R155, R156, R157; that `VF` is left
alone is the spec's decision D28, log 26). -/
def Obligations.LogicCombinesBitByBit : Prop :=
  ∀ x y : Reg,
  decodeWord (wordXY 0x8001 x y) = .ok (.orReg x y) ∧ decodeWord (wordXY 0x8002 x y) = .ok (.andReg x y) ∧
  decodeWord (wordXY 0x8003 x y) = .ok (.xorReg x y) ∧
  ∀ s : State,
    (∃ t, exec (.orReg x y) s = .next t ∧
      (∀ k, (t.reg x).getLsbD k = ((s.reg x).getLsbD k || (s.reg y).getLsbD k)) ∧
      t.pc = s.pc + 2 ∧ RegsKeptBut [x] s t ∧ OnlyChanges [.regs, .pc] s t) ∧
    (∃ t, exec (.andReg x y) s = .next t ∧
      (∀ k, (t.reg x).getLsbD k = ((s.reg x).getLsbD k && (s.reg y).getLsbD k)) ∧
      t.pc = s.pc + 2 ∧ RegsKeptBut [x] s t ∧ OnlyChanges [.regs, .pc] s t) ∧
    (∃ t, exec (.xorReg x y) s = .next t ∧
      (∀ k, (t.reg x).getLsbD k = ((s.reg x).getLsbD k ^^ (s.reg y).getLsbD k)) ∧
      t.pc = s.pc + 2 ∧ RegsKeptBut [x] s t ∧ OnlyChanges [.regs, .pc] s t)

/-- `8XY4` adds modulo 256 and sets `VF` to 1 exactly when the exact sum is above 255; with X = F the flag is what is left
(R158, R151). -/
def Obligations.AddRegSetsTheCarry : Prop :=
  ∀ x y : Reg, decodeWord (wordXY 0x8004 x y) = .ok (.addReg x y) ∧
  ∀ s : State, ∃ t, exec (.addReg x y) s = .next t ∧
    (x ≠ vf → (t.reg x).toNat = ((s.reg x).toNat + (s.reg y).toNat) % 256) ∧
    (t.reg vf).toNat = (if (s.reg x).toNat + (s.reg y).toNat > 255 then 1 else 0) ∧
    t.pc = s.pc + 2 ∧ RegsKeptBut [x, vf] s t ∧ OnlyChanges [.regs, .pc] s t

/-- `8XY5` and `8XY7` subtract modulo 256, in the two orders, and set `VF` to 1 exactly when no borrow is needed; with X = F the
flag is what is left (R159, R161). -/
def Obligations.SubtractionsSetNotBorrow : Prop :=
  ∀ x y : Reg,
  decodeWord (wordXY 0x8005 x y) = .ok (.sub x y) ∧ decodeWord (wordXY 0x8007 x y) = .ok (.subn x y) ∧
  ∀ s : State,
    (∃ t, exec (.sub x y) s = .next t ∧
      (x ≠ vf → ((t.reg x).toNat : Int) = (((s.reg x).toNat : Int) - (s.reg y).toNat) % 256) ∧
      (t.reg vf).toNat = (if (s.reg x).toNat ≥ (s.reg y).toNat then 1 else 0) ∧
      t.pc = s.pc + 2 ∧ RegsKeptBut [x, vf] s t ∧ OnlyChanges [.regs, .pc] s t) ∧
    (∃ t, exec (.subn x y) s = .next t ∧
      (x ≠ vf → ((t.reg x).toNat : Int) = (((s.reg y).toNat : Int) - (s.reg x).toNat) % 256) ∧
      (t.reg vf).toNat = (if (s.reg y).toNat ≥ (s.reg x).toNat then 1 else 0) ∧
      t.pc = s.pc + 2 ∧ RegsKeptBut [x, vf] s t ∧ OnlyChanges [.regs, .pc] s t)

/-- `8XY6` and `8XYE` shift `V[X]` by one, whatever Y is, and set `VF` to the bit shifted out; with X = F the flag is what is left
(R160, R162; that `V[Y]` is ignored is the spec's decision D28, log 26). -/
def Obligations.ShiftsSetTheBitShiftedOut : Prop :=
  ∀ x y : Reg,
  decodeWord (wordXY 0x8006 x y) = .ok (.shr x y) ∧ decodeWord (wordXY 0x800E x y) = .ok (.shl x y) ∧
  ∀ s : State,
    (∃ t, exec (.shr x y) s = .next t ∧ (x ≠ vf → (t.reg x).toNat = (s.reg x).toNat / 2) ∧
      (t.reg vf).toNat = (s.reg x).toNat % 2 ∧
      t.pc = s.pc + 2 ∧ RegsKeptBut [x, vf] s t ∧ OnlyChanges [.regs, .pc] s t) ∧
    (∃ t, exec (.shl x y) s = .next t ∧ (x ≠ vf → (t.reg x).toNat = (s.reg x).toNat * 2 % 256) ∧
      (t.reg vf).toNat = (s.reg x).toNat / 128 ∧
      t.pc = s.pc + 2 ∧ RegsKeptBut [x, vf] s t ∧ OnlyChanges [.regs, .pc] s t)

/-- `CXNN` loads the environment's byte masked by NN, takes one answer from the environment and writes no flag (R163; the byte
is free, the spec's decision D18, log 2). -/
def Obligations.RndMasksAFreshByte : Prop :=
  ∀ (x : Reg) (nn : Byte), decodeWord (wordXB 0xC000 x nn) = .ok (.rnd x nn) ∧
  ∀ s : State, ∃ t, exec (.rnd x nn) s = .next t ∧
    (∀ k, (t.reg x).getLsbD k = (nn.getLsbD k && s.rand8.getLsbD k)) ∧ t.draws = s.draws + 1 ∧
    t.pc = s.pc + 2 ∧ RegsKeptBut [x] s t ∧ OnlyChanges [.regs, .draws, .answers, .pc] s t

/-! ### Index register and memory -/

/-- `ANNN` loads NNN into `I` (R180); `FX29` loads five times `V[X]`, unmasked (R183). -/
def Obligations.IndexLoads : Prop :=
  (∀ nnn : Addr, decodeWord (wordA 0xA000 nnn) = .ok (.ldI nnn) ∧
    ∀ s : State, ∃ t, exec (.ldI nnn) s = .next t ∧ t.index.toNat = nnn.toNat ∧ t.pc = s.pc + 2 ∧
      OnlyChanges [.index, .pc] s t) ∧
  ∀ x : Reg, decodeWord (wordX 0xF029 x) = .ok (.ldFVx x) ∧
    ∀ s : State, ∃ t, exec (.ldFVx x) s = .next t ∧ t.index.toNat = (s.reg x).toNat * 5 ∧ t.pc = s.pc + 2 ∧
      OnlyChanges [.index, .pc] s t

/-- `FX1E` adds `V[X]` to `I` modulo 2^16, with no flag and no fault (R181; the wrap is the spec's decision D9, log 18). -/
def Obligations.AddIWrapsWithoutAFlag : Prop :=
  ∀ x : Reg, decodeWord (wordX 0xF01E x) = .ok (.addIVx x) ∧
  ∀ s : State, ∃ t, exec (.addIVx x) s = .next t ∧
    t.index.toNat = (s.index.toNat + (s.reg x).toNat) % 65536 ∧ t.pc = s.pc + 2 ∧ OnlyChanges [.index, .pc] s t

/-- `FX33` stores the hundreds, tens and ones of `V[X]` at `I`, `I+1`, `I+2`; past the end of memory it halts the engine and
writes nothing (R184; that nothing is written on the error is the spec's decision D8, log 9). -/
def Obligations.BcdStoresThreeDigits : Prop :=
  ∀ x : Reg, decodeWord (wordX 0xF033 x) = .ok (.ldBVx x) ∧
  ∀ s : State,
    (s.index.toNat + 2 < 4096 →
      ∃ t, exec (.ldBVx x) s = .next t ∧ (t.byte s.dataAddr).toNat = (s.reg x).toNat / 100 ∧
        (t.byte (s.dataAddr + 1)).toNat = (s.reg x).toNat / 10 % 10 ∧
        (t.byte (s.dataAddr + 2)).toNat = (s.reg x).toNat % 10 ∧
        t.pc = s.pc + 2 ∧ BytesKeptBut s.dataAddr 3 s t ∧ OnlyChanges [.mem, .pc] s t) ∧
    (4096 ≤ s.index.toNat + 2 →
      ∃ t, exec (.ldBVx x) s = .next t ∧ t.run = .halted (.outOfBounds (max s.index.toNat 4096) s.pc) ∧
        OnlyChanges [.run] s t)

/-- `FX55` stores `V0` to `V[X]` at `I` to `I+X` and leaves `I` alone; past the end of memory it halts the engine and writes
nothing (R185; that `I` is kept is the spec's decision D28, log 26, and that nothing is written on the error its D8, log 9). -/
def Obligations.BlockStoreWritesTheRegisters : Prop :=
  ∀ x : Reg, decodeWord (wordX 0xF055 x) = .ok (.ldMemVx x) ∧
  ∀ s : State,
    (s.index.toNat + x.toNat < 4096 →
      ∃ t, exec (.ldMemVx x) s = .next t ∧ (∀ k : Reg, k.toNat ≤ x.toNat → t.byte (s.dataAddr + k.toNat) = s.reg k) ∧
        t.pc = s.pc + 2 ∧ BytesKeptBut s.dataAddr (x.toNat + 1) s t ∧ OnlyChanges [.mem, .pc] s t) ∧
    (4096 ≤ s.index.toNat + x.toNat →
      ∃ t, exec (.ldMemVx x) s = .next t ∧ t.run = .halted (.outOfBounds (max s.index.toNat 4096) s.pc) ∧
        OnlyChanges [.run] s t)

/-- `FX65` loads `V0` to `V[X]` from `I` to `I+X`, keeps the registers above X and leaves `I` alone; past the end of memory it
halts the engine and writes nothing (R186; that `I` is kept is the spec's decision D28, log 26, and that nothing is written
on the error its D8, log 9). -/
def Obligations.BlockLoadReadsTheRegisters : Prop :=
  ∀ x : Reg, decodeWord (wordX 0xF065 x) = .ok (.ldVxMem x) ∧
  ∀ s : State,
    (s.index.toNat + x.toNat < 4096 →
      ∃ t, exec (.ldVxMem x) s = .next t ∧ (∀ k : Reg, k.toNat ≤ x.toNat → t.reg k = s.byte (s.dataAddr + k.toNat)) ∧
        (∀ k : Reg, x.toNat < k.toNat → t.reg k = s.reg k) ∧ t.pc = s.pc + 2 ∧ OnlyChanges [.regs, .pc] s t) ∧
    (4096 ≤ s.index.toNat + x.toNat →
      ∃ t, exec (.ldVxMem x) s = .next t ∧ t.run = .halted (.outOfBounds (max s.index.toNat 4096) s.pc) ∧
        OnlyChanges [.run] s t)

/-- Storing `V0` to `V[X]` and then, with those registers changed in any way, loading them from the same place gives them back,
`V[X]` included (95_test_vectors.md L1-5, over R185 and R186; that `I` is kept is the spec's decision D28, log 26). -/
def Obligations.BlockStoreThenLoadRoundTrips : Prop :=
  ∀ (x : Reg) (s t t' : State), s.index.toNat + x.toNat < 4096 → exec (.ldMemVx x) s = .next t →
    OnlyChanges [.regs] t t' →
    ∃ u, exec (.ldVxMem x) t' = .next u ∧ (∀ k : Reg, k.toNat ≤ x.toNat → u.reg k = s.reg k) ∧
      u.index = s.index ∧ ∀ a, u.byte a = t.byte a

/-- The fetch of the very next instruction sees the bytes a block store has just written there: self-modifying code needs no
barrier (R63, R272; the spec's decision D21, log 28). -/
def Obligations.NextFetchSeesTheStore : Prop :=
  ∀ (x : Reg) (s t : State), 1 ≤ x.toNat → s.index.toNat = s.pc.toNat + 2 → s.index.toNat + x.toNat < 4096 →
    exec (.ldMemVx x) s = .next t → t.fetch = .ok (s.reg 0 ++ s.reg 1)

/-! ### Keys and timers -/

/-- `EX9E` and `EXA1` ask once whether the key numbered `V[X]` is down and skip on the answer and on its negation (R200, R201;
what they do for `V[X]` of 16 and above is the spec's decision D12, log 3). -/
def Obligations.SkipsOnAKey : Prop :=
  ∀ x : Reg, decodeWord (wordX 0xE09E x) = .ok (.skp x) ∧ decodeWord (wordX 0xE0A1 x) = .ok (.sknp x) ∧
  ∀ s : State,
    (∃ t, exec (.skp x) s = .next t ∧
      t.pc = (if s.keyDown (s.reg x) = true then s.pc + 4 else s.pc + 2) ∧ t.draws = s.draws + 1 ∧
      OnlyChanges [.pc, .draws, .answers] s t) ∧
    (∃ t, exec (.sknp x) s = .next t ∧
      t.pc = (if s.keyDown (s.reg x) = true then s.pc + 2 else s.pc + 4) ∧ t.draws = s.draws + 1 ∧
      OnlyChanges [.pc, .draws, .answers] s t)

/-- `FX0A` makes the engine await a key for `V[X]` and leaves everything else, `PC` too, as it is (R204). -/
def Obligations.LdVxKAwaitsAKey : Prop :=
  ∀ x : Reg, decodeWord (wordX 0xF00A x) = .ok (.ldVxK x) ∧
  ∀ s : State, ∃ t, exec (.ldVxK x) s = .next t ∧ t.run = .awaitingKey x ∧ OnlyChanges [.run] s t

/-- `FX07` reads `DT`, `FX15` writes it, `FX18` writes `ST`, and the tone follows `ST > 0` (R202, R206, R207). -/
def Obligations.TimerMoves : Prop :=
  ∀ x : Reg, decodeWord (wordX 0xF007 x) = .ok (.ldVxDt x) ∧ decodeWord (wordX 0xF015 x) = .ok (.ldDtVx x) ∧
  decodeWord (wordX 0xF018 x) = .ok (.ldStVx x) ∧
  ∀ s : State,
    (∃ t, exec (.ldVxDt x) s = .next t ∧ t.reg x = s.dt ∧ t.pc = s.pc + 2 ∧ RegsKeptBut [x] s t ∧
      OnlyChanges [.regs, .pc] s t) ∧
    (∃ t, exec (.ldDtVx x) s = .next t ∧ t.dt = s.reg x ∧ t.pc = s.pc + 2 ∧ OnlyChanges [.dt, .pc] s t) ∧
    (∃ t, exec (.ldStVx x) s = .next t ∧ t.st = s.reg x ∧ (t.tone = true ↔ 0 < (s.reg x).toNat) ∧
      t.pc = s.pc + 2 ∧ OnlyChanges [.st, .pc] s t)
end

