-- ==== Sys2Proof/Laws/Encoding.lean ====
section
/-! SUPPORT. The fields of an assembled word (30_encoding.md R71, R72): each field is the base word's field with the
operand put into it; and the fixed bits are the base word's. -/

namespace Sys2Proof

/-! Format `A` -/

theorem fieldG_wordA (base : Word) (nnn : Addr) : fieldG (wordA base nnn) = fieldG base := by
  apply BitVec.eq_of_getElem_eq
  intro i hi
  interval_cases i <;> simp [fieldG, wordA]

theorem fieldNNN_wordA (base : Word) (nnn : Addr) : fieldNNN (wordA base nnn) = fieldNNN base ||| nnn := by
  apply BitVec.eq_of_getElem_eq
  intro i hi
  interval_cases i <;> simp [fieldNNN, wordA]

theorem wordA_fixed (base : Word) (nnn : Addr) : wordA base nnn &&& 0xF000 = base &&& 0xF000 := by
  apply BitVec.eq_of_getElem_eq
  intro i hi
  interval_cases i <;> simp [wordA]

/-! Format `X` -/

theorem fieldG_wordX (base : Word) (x : Reg) : fieldG (wordX base x) = fieldG base := by
  apply BitVec.eq_of_getElem_eq
  intro i hi
  interval_cases i <;> simp [fieldG, wordX]

theorem fieldX_wordX (base : Word) (x : Reg) : fieldX (wordX base x) = fieldX base ||| x := by
  apply BitVec.eq_of_getElem_eq
  intro i hi
  interval_cases i <;> simp [fieldX, wordX]

theorem fieldNN_wordX (base : Word) (x : Reg) : fieldNN (wordX base x) = fieldNN base := by
  apply BitVec.eq_of_getElem_eq
  intro i hi
  interval_cases i <;> simp [fieldNN, wordX]

theorem wordX_fixed (base : Word) (x : Reg) : wordX base x &&& 0xF0FF = base &&& 0xF0FF := by
  apply BitVec.eq_of_getElem_eq
  intro i hi
  interval_cases i <;> simp [wordX]

/-! Format `XB` -/

theorem fieldG_wordXB (base : Word) (x : Reg) (nn : Byte) : fieldG (wordXB base x nn) = fieldG base := by
  apply BitVec.eq_of_getElem_eq
  intro i hi
  interval_cases i <;> simp [fieldG, wordXB]

theorem fieldX_wordXB (base : Word) (x : Reg) (nn : Byte) : fieldX (wordXB base x nn) = fieldX base ||| x := by
  apply BitVec.eq_of_getElem_eq
  intro i hi
  interval_cases i <;> simp [fieldX, wordXB]

theorem fieldNN_wordXB (base : Word) (x : Reg) (nn : Byte) : fieldNN (wordXB base x nn) = fieldNN base ||| nn := by
  apply BitVec.eq_of_getElem_eq
  intro i hi
  interval_cases i <;> simp [fieldNN, wordXB]

theorem wordXB_fixed (base : Word) (x : Reg) (nn : Byte) : wordXB base x nn &&& 0xF000 = base &&& 0xF000 := by
  apply BitVec.eq_of_getElem_eq
  intro i hi
  interval_cases i <;> simp [wordXB]

/-! Format `XY` -/

theorem fieldG_wordXY (base : Word) (x y : Reg) : fieldG (wordXY base x y) = fieldG base := by
  apply BitVec.eq_of_getElem_eq
  intro i hi
  interval_cases i <;> simp [fieldG, wordXY]

theorem fieldX_wordXY (base : Word) (x y : Reg) : fieldX (wordXY base x y) = fieldX base ||| x := by
  apply BitVec.eq_of_getElem_eq
  intro i hi
  interval_cases i <;> simp [fieldX, wordXY]

theorem fieldY_wordXY (base : Word) (x y : Reg) : fieldY (wordXY base x y) = fieldY base ||| y := by
  apply BitVec.eq_of_getElem_eq
  intro i hi
  interval_cases i <;> simp [fieldY, wordXY]

theorem fieldN_wordXY (base : Word) (x y : Reg) : fieldN (wordXY base x y) = fieldN base := by
  apply BitVec.eq_of_getElem_eq
  intro i hi
  interval_cases i <;> simp [fieldN, wordXY]

theorem wordXY_fixed (base : Word) (x y : Reg) : wordXY base x y &&& 0xF00F = base &&& 0xF00F := by
  apply BitVec.eq_of_getElem_eq
  intro i hi
  interval_cases i <;> simp [wordXY]

/-! Format `XYN` -/

theorem fieldG_wordXYN (base : Word) (x y : Reg) (n : BitVec 4) : fieldG (wordXYN base x y n) = fieldG base := by
  apply BitVec.eq_of_getElem_eq
  intro i hi
  interval_cases i <;> simp [fieldG, wordXYN]

theorem fieldX_wordXYN (base : Word) (x y : Reg) (n : BitVec 4) : fieldX (wordXYN base x y n) = fieldX base ||| x := by
  apply BitVec.eq_of_getElem_eq
  intro i hi
  interval_cases i <;> simp [fieldX, wordXYN]

theorem fieldY_wordXYN (base : Word) (x y : Reg) (n : BitVec 4) : fieldY (wordXYN base x y n) = fieldY base ||| y := by
  apply BitVec.eq_of_getElem_eq
  intro i hi
  interval_cases i <;> simp [fieldY, wordXYN]

theorem fieldN_wordXYN (base : Word) (x y : Reg) (n : BitVec 4) : fieldN (wordXYN base x y n) = fieldN base ||| n := by
  apply BitVec.eq_of_getElem_eq
  intro i hi
  interval_cases i <;> simp [fieldN, wordXYN]

theorem wordXYN_fixed (base : Word) (x y : Reg) (n : BitVec 4) : wordXYN base x y n &&& 0xF000 = base &&& 0xF000 := by
  apply BitVec.eq_of_getElem_eq
  intro i hi
  interval_cases i <;> simp [wordXYN]

/-- The two bytes of a word make that word again (R53). -/
theorem wordOfBytes_bytes (w : Word) : wordOfBytes (w.extractLsb' 8 8) (w.extractLsb' 0 8) = w := by
  apply BitVec.eq_of_getLsbD_eq
  intro i hi
  rw [wordOfBytes, BitVec.getLsbD_append]
  interval_cases i <;> simp

end Sys2Proof
end

