-- ==== Sys2Proof/Laws/State.lean ====
section
/-! SUPPORT. One lemma per field per update of the state, each true by `rfl`, so that no proof unfolds a record update;
and what the register and byte accessors give after each update. -/

namespace Sys2Proof.Machine

variable (s : State)

/-! `setReg` -/

@[simp] theorem State.setReg_v (r : Reg) (b : Byte) : (s.setReg r b).v = s.v.set r.toNat b r.isLt := rfl
@[simp] theorem State.setReg_index (r : Reg) (b : Byte) : (s.setReg r b).index = s.index := rfl
@[simp] theorem State.setReg_pc (r : Reg) (b : Byte) : (s.setReg r b).pc = s.pc := rfl
@[simp] theorem State.setReg_stack (r : Reg) (b : Byte) : (s.setReg r b).stack = s.stack := rfl
@[simp] theorem State.setReg_dt (r : Reg) (b : Byte) : (s.setReg r b).dt = s.dt := rfl
@[simp] theorem State.setReg_st (r : Reg) (b : Byte) : (s.setReg r b).st = s.st := rfl
@[simp] theorem State.setReg_fb (r : Reg) (b : Byte) : (s.setReg r b).fb = s.fb := rfl
@[simp] theorem State.setReg_mem (r : Reg) (b : Byte) : (s.setReg r b).mem = s.mem := rfl
@[simp] theorem State.setReg_run (r : Reg) (b : Byte) : (s.setReg r b).run = s.run := rfl
@[simp] theorem State.setReg_image (r : Reg) (b : Byte) : (s.setReg r b).image = s.image := rfl
@[simp] theorem State.setReg_draws (r : Reg) (b : Byte) : (s.setReg r b).draws = s.draws := rfl
@[simp] theorem State.setReg_answers (r : Reg) (b : Byte) : (s.setReg r b).answers = s.answers := rfl
@[simp] theorem State.setReg_schedule (r : Reg) (b : Byte) : (s.setReg r b).schedule = s.schedule := rfl
@[simp] theorem State.setReg_pulses (r : Reg) (b : Byte) : (s.setReg r b).pulses = s.pulses := rfl
@[simp] theorem State.setReg_byte (r : Reg) (b : Byte) (a : Nat) : (s.setReg r b).byte a = s.byte a := rfl

/-! `setIndex` -/

@[simp] theorem State.setIndex_v (w : Word) : (s.setIndex w).v = s.v := rfl
@[simp] theorem State.setIndex_index (w : Word) : (s.setIndex w).index = w := rfl
@[simp] theorem State.setIndex_pc (w : Word) : (s.setIndex w).pc = s.pc := rfl
@[simp] theorem State.setIndex_stack (w : Word) : (s.setIndex w).stack = s.stack := rfl
@[simp] theorem State.setIndex_dt (w : Word) : (s.setIndex w).dt = s.dt := rfl
@[simp] theorem State.setIndex_st (w : Word) : (s.setIndex w).st = s.st := rfl
@[simp] theorem State.setIndex_fb (w : Word) : (s.setIndex w).fb = s.fb := rfl
@[simp] theorem State.setIndex_mem (w : Word) : (s.setIndex w).mem = s.mem := rfl
@[simp] theorem State.setIndex_run (w : Word) : (s.setIndex w).run = s.run := rfl
@[simp] theorem State.setIndex_image (w : Word) : (s.setIndex w).image = s.image := rfl
@[simp] theorem State.setIndex_draws (w : Word) : (s.setIndex w).draws = s.draws := rfl
@[simp] theorem State.setIndex_answers (w : Word) : (s.setIndex w).answers = s.answers := rfl
@[simp] theorem State.setIndex_schedule (w : Word) : (s.setIndex w).schedule = s.schedule := rfl
@[simp] theorem State.setIndex_pulses (w : Word) : (s.setIndex w).pulses = s.pulses := rfl
@[simp] theorem State.setIndex_reg (w : Word) (q : Reg) : (s.setIndex w).reg q = s.reg q := rfl
@[simp] theorem State.setIndex_byte (w : Word) (a : Nat) : (s.setIndex w).byte a = s.byte a := rfl

/-! `setPc` -/

@[simp] theorem State.setPc_v (w : Word) : (s.setPc w).v = s.v := rfl
@[simp] theorem State.setPc_index (w : Word) : (s.setPc w).index = s.index := rfl
@[simp] theorem State.setPc_pc (w : Word) : (s.setPc w).pc = w := rfl
@[simp] theorem State.setPc_stack (w : Word) : (s.setPc w).stack = s.stack := rfl
@[simp] theorem State.setPc_dt (w : Word) : (s.setPc w).dt = s.dt := rfl
@[simp] theorem State.setPc_st (w : Word) : (s.setPc w).st = s.st := rfl
@[simp] theorem State.setPc_fb (w : Word) : (s.setPc w).fb = s.fb := rfl
@[simp] theorem State.setPc_mem (w : Word) : (s.setPc w).mem = s.mem := rfl
@[simp] theorem State.setPc_run (w : Word) : (s.setPc w).run = s.run := rfl
@[simp] theorem State.setPc_image (w : Word) : (s.setPc w).image = s.image := rfl
@[simp] theorem State.setPc_draws (w : Word) : (s.setPc w).draws = s.draws := rfl
@[simp] theorem State.setPc_answers (w : Word) : (s.setPc w).answers = s.answers := rfl
@[simp] theorem State.setPc_schedule (w : Word) : (s.setPc w).schedule = s.schedule := rfl
@[simp] theorem State.setPc_pulses (w : Word) : (s.setPc w).pulses = s.pulses := rfl
@[simp] theorem State.setPc_reg (w : Word) (q : Reg) : (s.setPc w).reg q = s.reg q := rfl
@[simp] theorem State.setPc_byte (w : Word) (a : Nat) : (s.setPc w).byte a = s.byte a := rfl

/-! `setDt` -/

@[simp] theorem State.setDt_v (b : Byte) : (s.setDt b).v = s.v := rfl
@[simp] theorem State.setDt_index (b : Byte) : (s.setDt b).index = s.index := rfl
@[simp] theorem State.setDt_pc (b : Byte) : (s.setDt b).pc = s.pc := rfl
@[simp] theorem State.setDt_stack (b : Byte) : (s.setDt b).stack = s.stack := rfl
@[simp] theorem State.setDt_dt (b : Byte) : (s.setDt b).dt = b := rfl
@[simp] theorem State.setDt_st (b : Byte) : (s.setDt b).st = s.st := rfl
@[simp] theorem State.setDt_fb (b : Byte) : (s.setDt b).fb = s.fb := rfl
@[simp] theorem State.setDt_mem (b : Byte) : (s.setDt b).mem = s.mem := rfl
@[simp] theorem State.setDt_run (b : Byte) : (s.setDt b).run = s.run := rfl
@[simp] theorem State.setDt_image (b : Byte) : (s.setDt b).image = s.image := rfl
@[simp] theorem State.setDt_draws (b : Byte) : (s.setDt b).draws = s.draws := rfl
@[simp] theorem State.setDt_answers (b : Byte) : (s.setDt b).answers = s.answers := rfl
@[simp] theorem State.setDt_schedule (b : Byte) : (s.setDt b).schedule = s.schedule := rfl
@[simp] theorem State.setDt_pulses (b : Byte) : (s.setDt b).pulses = s.pulses := rfl
@[simp] theorem State.setDt_reg (b : Byte) (q : Reg) : (s.setDt b).reg q = s.reg q := rfl
@[simp] theorem State.setDt_byte (b : Byte) (a : Nat) : (s.setDt b).byte a = s.byte a := rfl

/-! `setSt` -/

@[simp] theorem State.setSt_v (b : Byte) : (s.setSt b).v = s.v := rfl
@[simp] theorem State.setSt_index (b : Byte) : (s.setSt b).index = s.index := rfl
@[simp] theorem State.setSt_pc (b : Byte) : (s.setSt b).pc = s.pc := rfl
@[simp] theorem State.setSt_stack (b : Byte) : (s.setSt b).stack = s.stack := rfl
@[simp] theorem State.setSt_dt (b : Byte) : (s.setSt b).dt = s.dt := rfl
@[simp] theorem State.setSt_st (b : Byte) : (s.setSt b).st = b := rfl
@[simp] theorem State.setSt_fb (b : Byte) : (s.setSt b).fb = s.fb := rfl
@[simp] theorem State.setSt_mem (b : Byte) : (s.setSt b).mem = s.mem := rfl
@[simp] theorem State.setSt_run (b : Byte) : (s.setSt b).run = s.run := rfl
@[simp] theorem State.setSt_image (b : Byte) : (s.setSt b).image = s.image := rfl
@[simp] theorem State.setSt_draws (b : Byte) : (s.setSt b).draws = s.draws := rfl
@[simp] theorem State.setSt_answers (b : Byte) : (s.setSt b).answers = s.answers := rfl
@[simp] theorem State.setSt_schedule (b : Byte) : (s.setSt b).schedule = s.schedule := rfl
@[simp] theorem State.setSt_pulses (b : Byte) : (s.setSt b).pulses = s.pulses := rfl
@[simp] theorem State.setSt_reg (b : Byte) (q : Reg) : (s.setSt b).reg q = s.reg q := rfl
@[simp] theorem State.setSt_byte (b : Byte) (a : Nat) : (s.setSt b).byte a = s.byte a := rfl

/-! `setRun` -/

@[simp] theorem State.setRun_v (r : Run) : (s.setRun r).v = s.v := rfl
@[simp] theorem State.setRun_index (r : Run) : (s.setRun r).index = s.index := rfl
@[simp] theorem State.setRun_pc (r : Run) : (s.setRun r).pc = s.pc := rfl
@[simp] theorem State.setRun_stack (r : Run) : (s.setRun r).stack = s.stack := rfl
@[simp] theorem State.setRun_dt (r : Run) : (s.setRun r).dt = s.dt := rfl
@[simp] theorem State.setRun_st (r : Run) : (s.setRun r).st = s.st := rfl
@[simp] theorem State.setRun_fb (r : Run) : (s.setRun r).fb = s.fb := rfl
@[simp] theorem State.setRun_mem (r : Run) : (s.setRun r).mem = s.mem := rfl
@[simp] theorem State.setRun_run (r : Run) : (s.setRun r).run = r := rfl
@[simp] theorem State.setRun_image (r : Run) : (s.setRun r).image = s.image := rfl
@[simp] theorem State.setRun_draws (r : Run) : (s.setRun r).draws = s.draws := rfl
@[simp] theorem State.setRun_answers (r : Run) : (s.setRun r).answers = s.answers := rfl
@[simp] theorem State.setRun_schedule (r : Run) : (s.setRun r).schedule = s.schedule := rfl
@[simp] theorem State.setRun_pulses (r : Run) : (s.setRun r).pulses = s.pulses := rfl
@[simp] theorem State.setRun_reg (r : Run) (q : Reg) : (s.setRun r).reg q = s.reg q := rfl
@[simp] theorem State.setRun_byte (r : Run) (a : Nat) : (s.setRun r).byte a = s.byte a := rfl

/-! `setFb` -/

@[simp] theorem State.setFb_v (g : Framebuffer) : (s.setFb g).v = s.v := rfl
@[simp] theorem State.setFb_index (g : Framebuffer) : (s.setFb g).index = s.index := rfl
@[simp] theorem State.setFb_pc (g : Framebuffer) : (s.setFb g).pc = s.pc := rfl
@[simp] theorem State.setFb_stack (g : Framebuffer) : (s.setFb g).stack = s.stack := rfl
@[simp] theorem State.setFb_dt (g : Framebuffer) : (s.setFb g).dt = s.dt := rfl
@[simp] theorem State.setFb_st (g : Framebuffer) : (s.setFb g).st = s.st := rfl
@[simp] theorem State.setFb_fb (g : Framebuffer) : (s.setFb g).fb = g := rfl
@[simp] theorem State.setFb_mem (g : Framebuffer) : (s.setFb g).mem = s.mem := rfl
@[simp] theorem State.setFb_run (g : Framebuffer) : (s.setFb g).run = s.run := rfl
@[simp] theorem State.setFb_image (g : Framebuffer) : (s.setFb g).image = s.image := rfl
@[simp] theorem State.setFb_draws (g : Framebuffer) : (s.setFb g).draws = s.draws := rfl
@[simp] theorem State.setFb_answers (g : Framebuffer) : (s.setFb g).answers = s.answers := rfl
@[simp] theorem State.setFb_schedule (g : Framebuffer) : (s.setFb g).schedule = s.schedule := rfl
@[simp] theorem State.setFb_pulses (g : Framebuffer) : (s.setFb g).pulses = s.pulses := rfl
@[simp] theorem State.setFb_reg (g : Framebuffer) (q : Reg) : (s.setFb g).reg q = s.reg q := rfl
@[simp] theorem State.setFb_byte (g : Framebuffer) (a : Nat) : (s.setFb g).byte a = s.byte a := rfl

/-! `setMem` -/

@[simp] theorem State.setMem_v (m : Memory) : (s.setMem m).v = s.v := rfl
@[simp] theorem State.setMem_index (m : Memory) : (s.setMem m).index = s.index := rfl
@[simp] theorem State.setMem_pc (m : Memory) : (s.setMem m).pc = s.pc := rfl
@[simp] theorem State.setMem_stack (m : Memory) : (s.setMem m).stack = s.stack := rfl
@[simp] theorem State.setMem_dt (m : Memory) : (s.setMem m).dt = s.dt := rfl
@[simp] theorem State.setMem_st (m : Memory) : (s.setMem m).st = s.st := rfl
@[simp] theorem State.setMem_fb (m : Memory) : (s.setMem m).fb = s.fb := rfl
@[simp] theorem State.setMem_mem (m : Memory) : (s.setMem m).mem = m := rfl
@[simp] theorem State.setMem_run (m : Memory) : (s.setMem m).run = s.run := rfl
@[simp] theorem State.setMem_image (m : Memory) : (s.setMem m).image = s.image := rfl
@[simp] theorem State.setMem_draws (m : Memory) : (s.setMem m).draws = s.draws := rfl
@[simp] theorem State.setMem_answers (m : Memory) : (s.setMem m).answers = s.answers := rfl
@[simp] theorem State.setMem_schedule (m : Memory) : (s.setMem m).schedule = s.schedule := rfl
@[simp] theorem State.setMem_pulses (m : Memory) : (s.setMem m).pulses = s.pulses := rfl
@[simp] theorem State.setMem_reg (m : Memory) (q : Reg) : (s.setMem m).reg q = s.reg q := rfl

/-! `setStack` -/

@[simp] theorem State.setStack_v (xs : List Word) : (s.setStack xs).v = s.v := rfl
@[simp] theorem State.setStack_index (xs : List Word) : (s.setStack xs).index = s.index := rfl
@[simp] theorem State.setStack_pc (xs : List Word) : (s.setStack xs).pc = s.pc := rfl
@[simp] theorem State.setStack_stack (xs : List Word) : (s.setStack xs).stack = xs := rfl
@[simp] theorem State.setStack_dt (xs : List Word) : (s.setStack xs).dt = s.dt := rfl
@[simp] theorem State.setStack_st (xs : List Word) : (s.setStack xs).st = s.st := rfl
@[simp] theorem State.setStack_fb (xs : List Word) : (s.setStack xs).fb = s.fb := rfl
@[simp] theorem State.setStack_mem (xs : List Word) : (s.setStack xs).mem = s.mem := rfl
@[simp] theorem State.setStack_run (xs : List Word) : (s.setStack xs).run = s.run := rfl
@[simp] theorem State.setStack_image (xs : List Word) : (s.setStack xs).image = s.image := rfl
@[simp] theorem State.setStack_draws (xs : List Word) : (s.setStack xs).draws = s.draws := rfl
@[simp] theorem State.setStack_answers (xs : List Word) : (s.setStack xs).answers = s.answers := rfl
@[simp] theorem State.setStack_schedule (xs : List Word) : (s.setStack xs).schedule = s.schedule := rfl
@[simp] theorem State.setStack_pulses (xs : List Word) : (s.setStack xs).pulses = s.pulses := rfl
@[simp] theorem State.setStack_reg (xs : List Word) (q : Reg) : (s.setStack xs).reg q = s.reg q := rfl
@[simp] theorem State.setStack_byte (xs : List Word) (a : Nat) : (s.setStack xs).byte a = s.byte a := rfl

/-! `emit` -/

@[simp] theorem State.emit_v (p : Pulse) : (s.emit p).v = s.v := rfl
@[simp] theorem State.emit_index (p : Pulse) : (s.emit p).index = s.index := rfl
@[simp] theorem State.emit_pc (p : Pulse) : (s.emit p).pc = s.pc := rfl
@[simp] theorem State.emit_stack (p : Pulse) : (s.emit p).stack = s.stack := rfl
@[simp] theorem State.emit_dt (p : Pulse) : (s.emit p).dt = s.dt := rfl
@[simp] theorem State.emit_st (p : Pulse) : (s.emit p).st = s.st := rfl
@[simp] theorem State.emit_fb (p : Pulse) : (s.emit p).fb = s.fb := rfl
@[simp] theorem State.emit_mem (p : Pulse) : (s.emit p).mem = s.mem := rfl
@[simp] theorem State.emit_run (p : Pulse) : (s.emit p).run = s.run := rfl
@[simp] theorem State.emit_image (p : Pulse) : (s.emit p).image = s.image := rfl
@[simp] theorem State.emit_draws (p : Pulse) : (s.emit p).draws = s.draws := rfl
@[simp] theorem State.emit_answers (p : Pulse) : (s.emit p).answers = s.answers := rfl
@[simp] theorem State.emit_schedule (p : Pulse) : (s.emit p).schedule = s.schedule := rfl
@[simp] theorem State.emit_pulses (p : Pulse) : (s.emit p).pulses = s.pulses ++ [p] := rfl
@[simp] theorem State.emit_reg (p : Pulse) (q : Reg) : (s.emit p).reg q = s.reg q := rfl
@[simp] theorem State.emit_byte (p : Pulse) (a : Nat) : (s.emit p).byte a = s.byte a := rfl

/-! `drawn` -/

@[simp] theorem State.drawn_v : (s.drawn).v = s.v := rfl
@[simp] theorem State.drawn_index : (s.drawn).index = s.index := rfl
@[simp] theorem State.drawn_pc : (s.drawn).pc = s.pc := rfl
@[simp] theorem State.drawn_stack : (s.drawn).stack = s.stack := rfl
@[simp] theorem State.drawn_dt : (s.drawn).dt = s.dt := rfl
@[simp] theorem State.drawn_st : (s.drawn).st = s.st := rfl
@[simp] theorem State.drawn_fb : (s.drawn).fb = s.fb := rfl
@[simp] theorem State.drawn_mem : (s.drawn).mem = s.mem := rfl
@[simp] theorem State.drawn_run : (s.drawn).run = s.run := rfl
@[simp] theorem State.drawn_image : (s.drawn).image = s.image := rfl
@[simp] theorem State.drawn_draws : (s.drawn).draws = s.draws + 1 := rfl
@[simp] theorem State.drawn_answers : (s.drawn).answers = s.answers.tail := rfl
@[simp] theorem State.drawn_schedule : (s.drawn).schedule = s.schedule := rfl
@[simp] theorem State.drawn_pulses : (s.drawn).pulses = s.pulses := rfl
@[simp] theorem State.drawn_reg (q : Reg) : (s.drawn).reg q = s.reg q := rfl
@[simp] theorem State.drawn_byte (a : Nat) : (s.drawn).byte a = s.byte a := rfl

/-! `advance` -/

@[simp] theorem State.advance_v : (s.advance).v = s.v := rfl
@[simp] theorem State.advance_index : (s.advance).index = s.index := rfl
@[simp] theorem State.advance_pc : (s.advance).pc = s.pc + 2 := rfl
@[simp] theorem State.advance_stack : (s.advance).stack = s.stack := rfl
@[simp] theorem State.advance_dt : (s.advance).dt = s.dt := rfl
@[simp] theorem State.advance_st : (s.advance).st = s.st := rfl
@[simp] theorem State.advance_fb : (s.advance).fb = s.fb := rfl
@[simp] theorem State.advance_mem : (s.advance).mem = s.mem := rfl
@[simp] theorem State.advance_run : (s.advance).run = s.run := rfl
@[simp] theorem State.advance_image : (s.advance).image = s.image := rfl
@[simp] theorem State.advance_draws : (s.advance).draws = s.draws := rfl
@[simp] theorem State.advance_answers : (s.advance).answers = s.answers := rfl
@[simp] theorem State.advance_schedule : (s.advance).schedule = s.schedule := rfl
@[simp] theorem State.advance_pulses : (s.advance).pulses = s.pulses := rfl
@[simp] theorem State.advance_reg (q : Reg) : (s.advance).reg q = s.reg q := rfl
@[simp] theorem State.advance_byte (a : Nat) : (s.advance).byte a = s.byte a := rfl

/-! `skipIf` -/

@[simp] theorem State.skipIf_v (c : Bool) : (s.skipIf c).v = s.v := rfl
@[simp] theorem State.skipIf_index (c : Bool) : (s.skipIf c).index = s.index := rfl
@[simp] theorem State.skipIf_pc (c : Bool) : (s.skipIf c).pc = if c then s.pc + 4 else s.pc + 2 := rfl
@[simp] theorem State.skipIf_stack (c : Bool) : (s.skipIf c).stack = s.stack := rfl
@[simp] theorem State.skipIf_dt (c : Bool) : (s.skipIf c).dt = s.dt := rfl
@[simp] theorem State.skipIf_st (c : Bool) : (s.skipIf c).st = s.st := rfl
@[simp] theorem State.skipIf_fb (c : Bool) : (s.skipIf c).fb = s.fb := rfl
@[simp] theorem State.skipIf_mem (c : Bool) : (s.skipIf c).mem = s.mem := rfl
@[simp] theorem State.skipIf_run (c : Bool) : (s.skipIf c).run = s.run := rfl
@[simp] theorem State.skipIf_image (c : Bool) : (s.skipIf c).image = s.image := rfl
@[simp] theorem State.skipIf_draws (c : Bool) : (s.skipIf c).draws = s.draws := rfl
@[simp] theorem State.skipIf_answers (c : Bool) : (s.skipIf c).answers = s.answers := rfl
@[simp] theorem State.skipIf_schedule (c : Bool) : (s.skipIf c).schedule = s.schedule := rfl
@[simp] theorem State.skipIf_pulses (c : Bool) : (s.skipIf c).pulses = s.pulses := rfl
@[simp] theorem State.skipIf_reg (c : Bool) (q : Reg) : (s.skipIf c).reg q = s.reg q := rfl
@[simp] theorem State.skipIf_byte (c : Bool) (a : Nat) : (s.skipIf c).byte a = s.byte a := rfl

/-! `raise` -/

@[simp] theorem State.raise_v (e : Error) : (s.raise e).v = s.v := rfl
@[simp] theorem State.raise_index (e : Error) : (s.raise e).index = s.index := rfl
@[simp] theorem State.raise_pc (e : Error) : (s.raise e).pc = s.pc := rfl
@[simp] theorem State.raise_stack (e : Error) : (s.raise e).stack = s.stack := rfl
@[simp] theorem State.raise_dt (e : Error) : (s.raise e).dt = s.dt := rfl
@[simp] theorem State.raise_st (e : Error) : (s.raise e).st = s.st := rfl
@[simp] theorem State.raise_fb (e : Error) : (s.raise e).fb = s.fb := rfl
@[simp] theorem State.raise_mem (e : Error) : (s.raise e).mem = s.mem := rfl
@[simp] theorem State.raise_run (e : Error) : (s.raise e).run = .halted e := rfl
@[simp] theorem State.raise_image (e : Error) : (s.raise e).image = s.image := rfl
@[simp] theorem State.raise_draws (e : Error) : (s.raise e).draws = s.draws := rfl
@[simp] theorem State.raise_answers (e : Error) : (s.raise e).answers = s.answers := rfl
@[simp] theorem State.raise_schedule (e : Error) : (s.raise e).schedule = s.schedule := rfl
@[simp] theorem State.raise_pulses (e : Error) : (s.raise e).pulses = s.pulses := rfl
@[simp] theorem State.raise_reg (e : Error) (q : Reg) : (s.raise e).reg q = s.reg q := rfl
@[simp] theorem State.raise_byte (e : Error) (a : Nat) : (s.raise e).byte a = s.byte a := rfl

/-! `issued` -/

@[simp] theorem State.issued_v : s.issued.v = s.v := rfl
@[simp] theorem State.issued_index : s.issued.index = s.index := rfl
@[simp] theorem State.issued_pc : s.issued.pc = s.pc := rfl
@[simp] theorem State.issued_stack : s.issued.stack = s.stack := rfl
@[simp] theorem State.issued_dt : s.issued.dt = s.dt := rfl
@[simp] theorem State.issued_st : s.issued.st = s.st := rfl
@[simp] theorem State.issued_fb : s.issued.fb = s.fb := rfl
@[simp] theorem State.issued_mem : s.issued.mem = s.mem := rfl
@[simp] theorem State.issued_run : s.issued.run = s.run := rfl
@[simp] theorem State.issued_image : s.issued.image = s.image := rfl
@[simp] theorem State.issued_draws : s.issued.draws = s.draws := rfl
@[simp] theorem State.issued_answers : s.issued.answers = s.answers := rfl
@[simp] theorem State.issued_schedule : s.issued.schedule = s.schedule.tail := rfl
@[simp] theorem State.issued_pulses : s.issued.pulses = s.pulses := rfl
@[simp] theorem State.issued_reg (q : Reg) : s.issued.reg q = s.reg q := rfl
@[simp] theorem State.issued_byte (a : Nat) : s.issued.byte a = s.byte a := rfl

/-! Registers -/

@[simp] theorem State.setReg_reg_same (r : Reg) (b : Byte) : (s.setReg r b).reg r = b := by
  simp [State.reg]

theorem State.setReg_reg (r q : Reg) (b : Byte) : (s.setReg r b).reg q = if q = r then b else s.reg q := by
  simp only [State.reg, State.setReg_v, Vector.getElem_set, BitVec.toNat_inj, eq_comm (a := r)]

@[simp] theorem State.setReg_reg_other {r q : Reg} (b : Byte) (h : q ≠ r) : (s.setReg r b).reg q = s.reg q := by
  simp [State.setReg_reg, h]

/-- The flag is what `VF` holds after a flag-writing instruction, whatever the destination (R23). -/
@[simp] theorem State.setRegFlag_vf (x : Reg) (r : Byte) (c : Bool) : (s.setRegFlag x r c).reg vf = flagByte c := by
  simp [State.setRegFlag]

theorem State.setRegFlag_reg (x q : Reg) (r : Byte) (c : Bool) :
    (s.setRegFlag x r c).reg q = if q = vf then flagByte c else if q = x then r else s.reg q := by
  simp only [State.setRegFlag, State.setReg_reg]

/-- A destination other than `VF` holds the result. -/
theorem State.setRegFlag_reg_result {x : Reg} (r : Byte) (c : Bool) (h : x ≠ vf) : (s.setRegFlag x r c).reg x = r := by
  rw [State.setRegFlag, State.setReg_reg_other _ _ h, State.setReg_reg_same]

/-- A flag-writing instruction keeps every register but its destination and `VF`. -/
theorem State.setRegFlag_reg_other {x q : Reg} (r : Byte) (c : Bool) (hx : q ≠ x) (hf : q ≠ vf) :
    (s.setRegFlag x r c).reg q = s.reg q := by
  rw [State.setRegFlag, State.setReg_reg_other _ _ hf, State.setReg_reg_other _ _ hx]

/-! What only concerns the environment leaves the block's record alone (R20). -/

@[simp] theorem State.drawn_toBlock : s.drawn.toBlock = s.toBlock := rfl
@[simp] theorem State.issued_toBlock : s.issued.toBlock = s.toBlock := rfl
@[simp] theorem State.emit_toBlock (p : Pulse) : (s.emit p).toBlock = s.toBlock := rfl

@[simp] theorem State.setMem_byte (m : Memory) (a : Nat) : (s.setMem m).byte a = m.read a := rfl

/-- Two states agree on every register when their register files are equal, and the other way round. -/
theorem State.v_eq_of_reg_eq {s t : State} (h : ∀ r, t.reg r = s.reg r) : t.v = s.v := by
  apply Vector.ext
  intro i hi
  have := h (BitVec.ofNat 4 i)
  simpa [State.reg, Nat.mod_eq_of_lt hi] using this

end Sys2Proof.Machine
end

