-- ==== Sys2Proof/Laws/Memory.lean ====
section
/-! SUPPORT. The memory: a read after a write (20_memory.md R52, R60), the canonical form that every operation keeps, and
what the checked accesses answer (R51). -/

namespace Sys2Proof.Machine

/-! ### A read after a write -/

theorem Memory.read_insert (m : Memory) (a c : Nat) (b : Byte) (h : ∀ d ∈ m, d.1 ≠ a) :
    (Memory.insert m a b).read c = if c = a then b else m.read c := by
  induction m with
  | nil => simp [Memory.insert, Memory.read, eq_comm]
  | cons d rest ih =>
    have hd : d.1 ≠ a := h d (by simp)
    have ih := ih fun e he => h e (by simp [he])
    simp only [Memory.insert]
    split
    · simp [Memory.read, eq_comm]
    · simp only [Memory.read, ih]
      by_cases hk : d.1 = c
      · have : c ≠ a := hk ▸ hd
        simp [hk, this]
      · simp [hk]

theorem Memory.read_filter (m : Memory) (a c : Nat) :
    Memory.read (m.filter fun d => d.1 != a) c = if c = a then unlistedByte c else m.read c := by
  induction m with
  | nil => simp [Memory.read]
  | cons d rest ih =>
    rw [List.filter_cons]
    by_cases hk : d.1 = a
    · simp only [hk, bne_self_eq_false, Bool.false_eq_true, if_false, ih, Memory.read]
      by_cases hc : c = a
      · simp [hc]
      · simp [hc, Ne.symm hc]
    · simp only [bne_iff_ne, ne_eq, hk, not_false_eq_true, if_true, Memory.read, ih]
      by_cases hc : d.1 = c
      · have : c ≠ a := hc ▸ hk
        simp [hc, this]
      · simp [hc]

/-- A read gives the byte of the most recent write to that address (R60), on any list whatever. -/
theorem Memory.read_set (m : Memory) (a c : Nat) (b : Byte) :
    (m.set a b).read c = if c = a then b else m.read c := by
  have hf : ∀ d ∈ m.filter (fun d => d.1 != a), d.1 ≠ a := by
    intro d hd; simpa using (List.mem_filter.mp hd).2
  simp only [Memory.set]
  split
  · rename_i hb
    rw [Memory.read_filter]
    split <;> simp_all
  · rw [Memory.read_insert _ _ _ _ hf, Memory.read_filter]
    split <;> simp_all

/-- What a block write leaves at every address. -/
theorem Memory.read_setBytes (m : Memory) (a c : Nat) (bs : List Byte) :
    (m.setBytes a bs).read c = if a ≤ c ∧ c < a + bs.length then bs.getD (c - a) 0 else m.read c := by
  induction bs generalizing m a with
  | nil =>
    simp [Memory.setBytes]
  | cons b rest ih =>
    rw [Memory.setBytes, ih, Memory.read_set, List.length_cons]
    by_cases h1 : a + 1 ≤ c ∧ c < a + 1 + rest.length
    · have h2 : a ≤ c ∧ c < a + (rest.length + 1) := by omega
      have h3 : c - a = (c - (a + 1)) + 1 := by omega
      rw [if_pos h1, if_pos h2, h3, List.getD_cons_succ]
    · rw [if_neg h1]
      by_cases h2 : c = a
      · subst h2
        simp
      · have : ¬(a ≤ c ∧ c < a + (rest.length + 1)) := by omega
        rw [if_neg h2, if_neg this]

theorem Memory.read_setBytes_outside (m : Memory) (a c : Nat) (bs : List Byte) (h : c < a ∨ a + bs.length ≤ c) :
    (m.setBytes a bs).read c = m.read c := by
  rw [Memory.read_setBytes, if_neg (by omega)]

/-! ### The canonical form -/

theorem Memory.wf_cons (c : Host.Cell) (rest : Memory) :
    Memory.wf (c :: rest) = true ↔
      c.1 < Config.memSize ∧ c.2 ≠ unlistedByte c.1 ∧ (∀ d ∈ rest, c.1 < d.1) ∧ rest.wf = true := by
  simp [Memory.wf, and_assoc]

theorem Memory.wf_filter (m : Memory) (p : Host.Cell → Bool) (h : m.wf = true) :
    Memory.wf (m.filter p) = true := by
  induction m with
  | nil => rfl
  | cons c rest ih =>
    obtain ⟨h1, h2, h3, h4⟩ := (Memory.wf_cons c rest).mp h
    rw [List.filter_cons]
    split
    · exact (Memory.wf_cons _ _).mpr ⟨h1, h2, fun d hd => h3 d (List.mem_filter.mp hd).1, ih h4⟩
    · exact ih h4

theorem Memory.mem_insert (m : Memory) (a : Nat) (b : Byte) (d : Host.Cell) :
    d ∈ Memory.insert m a b ↔ d = (a, b) ∨ d ∈ m := by
  induction m with
  | nil => simp [Memory.insert]
  | cons c rest ih =>
    simp only [Memory.insert]
    split
    · simp
    · simp only [List.mem_cons, ih]; tauto

theorem Memory.wf_insert (m : Memory) (a : Nat) (b : Byte) (ha : a < Config.memSize) (hb : b ≠ unlistedByte a)
    (hn : ∀ d ∈ m, d.1 ≠ a) (h : m.wf = true) : (Memory.insert m a b).wf = true := by
  induction m with
  | nil => simp [Memory.insert, Memory.wf, ha, hb]
  | cons c rest ih =>
    obtain ⟨h1, h2, h3, h4⟩ := (Memory.wf_cons c rest).mp h
    have hca : c.1 ≠ a := hn c (by simp)
    simp only [Memory.insert]
    split
    · rename_i hlt
      refine (Memory.wf_cons _ _).mpr ⟨ha, hb, ?_, h⟩
      intro d hd
      rcases List.mem_cons.mp hd with rfl | hd
      · exact hlt
      · exact Nat.lt_trans hlt (h3 d hd)
    · refine (Memory.wf_cons _ _).mpr ⟨h1, h2, ?_, ih (fun d hd => hn d (by simp [hd])) h4⟩
      intro d hd
      rcases (Memory.mem_insert _ _ _ _).mp hd with rfl | hd
      · show c.1 < a
        omega
      · exact h3 d hd

/-- A write inside the address space keeps the canonical form. -/
theorem Memory.wf_set (m : Memory) (a : Nat) (b : Byte) (ha : a < Config.memSize) (h : m.wf = true) :
    (m.set a b).wf = true := by
  simp only [Memory.set]
  split
  · exact Memory.wf_filter _ _ h
  · rename_i hb
    exact Memory.wf_insert _ _ _ ha hb (fun d hd => by simpa using (List.mem_filter.mp hd).2) (Memory.wf_filter _ _ h)

/-- A block write inside the address space keeps the canonical form. -/
theorem Memory.wf_setBytes (m : Memory) (a : Nat) (bs : List Byte) (ha : a + bs.length ≤ Config.memSize)
    (h : m.wf = true) : (m.setBytes a bs).wf = true := by
  induction bs generalizing m a with
  | nil => exact h
  | cons b rest ih =>
    rw [List.length_cons] at ha
    exact ih _ _ (by omega) (Memory.wf_set _ _ _ (by omega) h)

/-- The memory after reset has the canonical form. -/
theorem Memory.wf_reset : State.reset.mem.wf = true := rfl

/-! ### Checked accesses -/

theorem firstOutside_none {a n : Nat} (h : n = 0 ∨ a + n ≤ 4096) : firstOutside a n = none := by
  simp only [firstOutside, List.find?_eq_none, List.mem_map, List.mem_range]
  rintro b ⟨k, hk, rfl⟩
  rw [Bool.not_eq_true, decide_eq_false_iff_not]
  show ¬ 4096 ≤ a + k
  omega

theorem find_map_range_add (a n : Nat) (p : Nat → Bool) (k : Nat) (hk : k < n) (hp : p (a + k) = true)
    (hlt : ∀ j, j < k → p (a + j) = false) : ((List.range n).map fun j => a + j).find? p = some (a + k) := by
  rw [List.find?_eq_some_iff_append]
  refine ⟨hp, (List.range k).map (fun j => a + j), (List.range' (k + 1) (n - (k + 1))).map (fun j => a + j), ?_, ?_⟩
  · have h1 : List.range n = List.range k ++ (k :: List.range' (k + 1) (n - (k + 1))) := by
      have : n = k + ((n - (k + 1)) + 1) := by omega
      conv_lhs => rw [this]
      rw [List.range_eq_range', List.range_eq_range', ← List.range'_append (step := 1), List.range'_succ]
      simp
    rw [h1]; simp
  · intro b hb
    obtain ⟨j, hj, rfl⟩ := List.mem_map.mp hb
    simp [hlt j (List.mem_range.mp hj)]

/-- The address reported is the lowest failing one (R51). -/
theorem firstOutside_some {a n : Nat} (h0 : n ≠ 0) (h : 4096 < a + n) : firstOutside a n = some (max a 4096) := by
  by_cases ha : 4096 ≤ a
  · have : max a 4096 = a + 0 := by omega
    rw [this]
    exact find_map_range_add a n _ 0 (by omega) (by simpa [Config.memSize] using ha) (by omega)
  · have : max a 4096 = a + (4096 - a) := by omega
    rw [this]
    refine find_map_range_add a n _ (4096 - a) (by omega) (decide_eq_true ?_) fun j hj => decide_eq_false ?_
    · show 4096 ≤ a + (4096 - a)
      omega
    · show ¬ 4096 ≤ a + j
      omega

variable (s : State)

/-- A read inside the address space answers the bytes, in address order. -/
theorem State.readBytes_ok {a n : Nat} (h : n = 0 ∨ a + n ≤ 4096) :
    s.readBytes a n = .ok ((List.range n).map fun k => s.byte (a + k)) := by
  simp [State.readBytes, firstOutside_none h, State.byte]

theorem State.readBytes_error {a n : Nat} (h0 : n ≠ 0) (h : 4096 < a + n) :
    s.readBytes a n = .error (.outOfBounds (max a 4096) s.pc) := by
  simp [State.readBytes, firstOutside_some h0 h]

/-- A write inside the address space writes the bytes and nothing else. -/
theorem State.writeBytes_ok {a : Nat} {bs : List Byte} (h : bs.length = 0 ∨ a + bs.length ≤ 4096) :
    s.writeBytes a bs = .ok (s.setMem (s.mem.setBytes a bs)) := by
  simp [State.writeBytes, firstOutside_none h]

theorem State.writeBytes_error {a : Nat} {bs : List Byte} (h0 : bs.length ≠ 0) (h : 4096 < a + bs.length) :
    s.writeBytes a bs = .error (.outOfBounds (max a 4096) s.pc) := by
  simp [State.writeBytes, firstOutside_some h0 h]

/-- What a checked write can do: it writes inside the address space, or reports the lowest failing address. -/
theorem State.writeBytes_cases (a : Nat) (bs : List Byte) :
    ((bs.length = 0 ∨ a + bs.length ≤ 4096) ∧ s.writeBytes a bs = .ok (s.setMem (s.mem.setBytes a bs))) ∨
      s.writeBytes a bs = .error (.outOfBounds (max a 4096) s.pc) := by
  by_cases h : bs.length = 0 ∨ a + bs.length ≤ 4096
  · exact .inl ⟨h, s.writeBytes_ok h⟩
  · exact .inr (s.writeBytes_error (by omega) (by omega))

/-- What a checked read can do. -/
theorem State.readBytes_cases (a n : Nat) :
    ((n = 0 ∨ a + n ≤ 4096) ∧ s.readBytes a n = .ok ((List.range n).map fun k => s.byte (a + k))) ∨
      s.readBytes a n = .error (.outOfBounds (max a 4096) s.pc) := by
  by_cases h : n = 0 ∨ a + n ≤ 4096
  · exact .inl ⟨h, s.readBytes_ok h⟩
  · exact .inr (s.readBytes_error (by omega) (by omega))

end Sys2Proof.Machine
end

