-- ==== Sys2Proof/Laws/Ops.lean ====
section
/-! SUPPORT. What each shared operation can do, said once: ending an instruction, the stack, register blocks, the
framebuffer, events and the fetch. -/

namespace Sys2Proof.Machine

variable (s : State)

/-! ### Ending an instruction -/

@[simp] theorem State.settle_ok (t : State) : s.settle (.ok t) = .next t := rfl

@[simp] theorem State.settle_error (e : Error) : s.settle (.error e) = .next (s.raise e) := rfl

/-- An instruction ends in the state it computed, or in the state before it with an error raised (R223). -/
theorem State.settle_cases {r : Except Error State} {t : State} (h : s.settle r = .next t) :
    r = .ok t ∨ ∃ e, r = .error e ∧ t = s.raise e := by
  cases r with
  | ok u => exact .inl (by simpa using h)
  | error e => exact .inr ⟨e, rfl, by simpa [eq_comm] using h⟩

/-! ### Call stack -/

theorem State.push_ok {w : Word} (h : s.stack.length < stackDepth) :
    s.push w = .ok (s.setStack (s.stack ++ [w])) := by
  simp [State.push, h]

theorem State.push_full {w : Word} (h : stackDepth ≤ s.stack.length) : s.push w = .error (.stackOverflow s.pc) := by
  simp [State.push, Nat.not_lt.mpr h]

theorem State.pop_ok {xs : List Word} {w : Word} (h : s.stack = xs ++ [w]) : s.pop = .ok (w, s.setStack xs) := by
  simp [State.pop, h]

theorem State.pop_empty (h : s.stack = []) : s.pop = .error (.stackUnderflow s.pc) := by
  simp [State.pop, h]

/-! ### Register blocks -/

@[simp] theorem State.regsUpTo_length (x : Reg) : (s.regsUpTo x).length = x.toNat + 1 := by
  simp [State.regsUpTo]

theorem State.regsUpTo_getD {x : Reg} {k : Nat} (h : k ≤ x.toNat) :
    (s.regsUpTo x).getD k 0 = s.reg (BitVec.ofNat 4 k) := by
  have hk : k < x.toNat + 1 := by omega
  simp [State.regsUpTo, List.getD_eq_getElem?_getD, hk]

/-- A block load writes the registers it names with the bytes in order, and no other register (R186). -/
theorem State.setRegsFrom_reg (k : Nat) (bs : List Byte) (q : Reg) (h : k + bs.length ≤ 16) :
    (s.setRegsFrom k bs).reg q =
      if k ≤ q.toNat ∧ q.toNat < k + bs.length then bs.getD (q.toNat - k) 0 else s.reg q := by
  induction bs generalizing s k with
  | nil =>
    rw [State.setRegsFrom, if_neg (by simp only [List.length_nil]; omega)]
  | cons b rest ih =>
    rw [List.length_cons] at h
    rw [State.setRegsFrom, ih _ _ (by omega), List.length_cons, State.setReg_reg]
    by_cases h1 : k + 1 ≤ q.toNat ∧ q.toNat < k + 1 + rest.length
    · have h3 : q.toNat - k = (q.toNat - (k + 1)) + 1 := by omega
      rw [if_pos h1, if_pos (by omega), h3, List.getD_cons_succ]
    · rw [if_neg h1]
      by_cases h2 : q.toNat = k
      · have hq : q = BitVec.ofNat 4 k := by
          apply BitVec.eq_of_toNat_eq
          rw [BitVec.toNat_ofNat, ← h2, Nat.mod_eq_of_lt q.isLt]
        rw [if_pos hq, if_pos (by omega), h2, Nat.sub_self, List.getD_cons_zero]
      · have hq : q ≠ BitVec.ofNat 4 k := by
          intro hc
          apply h2
          rw [hc, BitVec.toNat_ofNat]
          exact Nat.mod_eq_of_lt (by omega)
        rw [if_neg hq, if_neg (by omega)]

/-- A block load writes registers and nothing else. -/
theorem State.setRegsFrom_eq (k : Nat) (bs : List Byte) :
    s.setRegsFrom k bs = { s with v := (s.setRegsFrom k bs).v } := by
  induction bs generalizing s k with
  | nil => rfl
  | cons b rest ih =>
    rw [State.setRegsFrom, ih]
    rfl

@[simp] theorem State.setRegsFrom_index (k : Nat) (bs : List Byte) : (s.setRegsFrom k bs).index = s.index := by
  rw [State.setRegsFrom_eq]

@[simp] theorem State.setRegsFrom_pc (k : Nat) (bs : List Byte) : (s.setRegsFrom k bs).pc = s.pc := by
  rw [State.setRegsFrom_eq]

@[simp] theorem State.setRegsFrom_stack (k : Nat) (bs : List Byte) : (s.setRegsFrom k bs).stack = s.stack := by
  rw [State.setRegsFrom_eq]

@[simp] theorem State.setRegsFrom_dt (k : Nat) (bs : List Byte) : (s.setRegsFrom k bs).dt = s.dt := by
  rw [State.setRegsFrom_eq]

@[simp] theorem State.setRegsFrom_st (k : Nat) (bs : List Byte) : (s.setRegsFrom k bs).st = s.st := by
  rw [State.setRegsFrom_eq]

@[simp] theorem State.setRegsFrom_fb (k : Nat) (bs : List Byte) : (s.setRegsFrom k bs).fb = s.fb := by
  rw [State.setRegsFrom_eq]

@[simp] theorem State.setRegsFrom_mem (k : Nat) (bs : List Byte) : (s.setRegsFrom k bs).mem = s.mem := by
  rw [State.setRegsFrom_eq]

@[simp] theorem State.setRegsFrom_run (k : Nat) (bs : List Byte) : (s.setRegsFrom k bs).run = s.run := by
  rw [State.setRegsFrom_eq]

@[simp] theorem State.setRegsFrom_image (k : Nat) (bs : List Byte) : (s.setRegsFrom k bs).image = s.image := by
  rw [State.setRegsFrom_eq]

@[simp] theorem State.setRegsFrom_draws (k : Nat) (bs : List Byte) : (s.setRegsFrom k bs).draws = s.draws := by
  rw [State.setRegsFrom_eq]

@[simp] theorem State.setRegsFrom_answers (k : Nat) (bs : List Byte) : (s.setRegsFrom k bs).answers = s.answers := by
  rw [State.setRegsFrom_eq]

@[simp] theorem State.setRegsFrom_schedule (k : Nat) (bs : List Byte) : (s.setRegsFrom k bs).schedule = s.schedule := by
  rw [State.setRegsFrom_eq]

@[simp] theorem State.setRegsFrom_pulses (k : Nat) (bs : List Byte) : (s.setRegsFrom k bs).pulses = s.pulses := by
  rw [State.setRegsFrom_eq]

@[simp] theorem State.setRegsFrom_byte (k : Nat) (bs : List Byte) (a : Nat) :
    (s.setRegsFrom k bs).byte a = s.byte a := by
  rw [State.setRegsFrom_eq]; rfl

/-! ### Framebuffer -/

theorem Framebuffer.pixel_clear (x : Fin 64) (y : Fin 32) : Framebuffer.clear.pixel x y = false := by
  simp [Framebuffer.clear, Framebuffer.pixel]

theorem Framebuffer.pixel_toggle (fb : Framebuffer) (x x' : Fin 64) (y y' : Fin 32) :
    (fb.toggle x y).pixel x' y' = if x' = x ∧ y' = y then !fb.pixel x' y' else fb.pixel x' y' := by
  simp only [Framebuffer.toggle, Framebuffer.pixel, Vector.getElem_set]
  by_cases hx : x = x'
  · subst hx
    by_cases hy : y = y'
    · subst hy; simp
    · simp [Fin.val_inj, hy, Ne.symm hy]
  · simp [Fin.val_inj, hx, Ne.symm hx]

/-- Framebuffers with the same pixels are equal. -/
theorem Framebuffer.ext_pixel {f g : Framebuffer} (h : ∀ x y, f.pixel x y = g.pixel x y) : f = g := by
  apply Vector.ext
  intro i hi
  apply Vector.ext
  intro j hj
  exact h ⟨i, hi⟩ ⟨j, hj⟩

/-- Toggle one point of the screen. -/
def plotPoint (c : Canvas) (p : Fin 64 × Fin 32) : Canvas := ⟨c.fb.toggle p.1 p.2, c.collide || c.fb.pixel p.1 p.2⟩

/-- The points a sprite's set bits fall on, row by row. -/
def spritePoints (x0 y : Nat) (rows : List Byte) : List (Fin 64 × Fin 32) :=
  match rows with
  | [] => []
  | row :: rest =>
    (((List.range 8).filter fun j => row.getLsbD (7 - j)).map fun j => (Fin.ofNat 64 (x0 + j), Fin.ofNat 32 y)) ++
      spritePoints x0 (y + 1) rest

theorem blitRow_eq_foldl (x0 y : Nat) (row : Byte) (c : Canvas) :
    blitRow x0 y row c =
      (((List.range 8).filter fun j => row.getLsbD (7 - j)).map fun j =>
        (Fin.ofNat 64 (x0 + j), Fin.ofNat 32 y)).foldl plotPoint c := by
  rw [blitRow, List.foldl_map, List.foldl_filter]
  rfl

theorem blit_eq_foldl (x0 y : Nat) (rows : List Byte) (c : Canvas) :
    blit x0 y rows c = (spritePoints x0 y rows).foldl plotPoint c := by
  induction rows generalizing y c with
  | nil => rfl
  | cons row rest ih => rw [blit, ih, blitRow_eq_foldl, spritePoints, List.foldl_append]

/-- Toggling distinct points flips each of them once, and meets a collision where one of them was set before. -/
theorem foldl_plotPoint (ps : List (Fin 64 × Fin 32)) (h : ps.Nodup) (c : Canvas) :
    (∀ x y, (ps.foldl plotPoint c).fb.pixel x y = (c.fb.pixel x y ^^ decide ((x, y) ∈ ps))) ∧
      ((ps.foldl plotPoint c).collide = true ↔ c.collide = true ∨ ∃ p ∈ ps, c.fb.pixel p.1 p.2 = true) := by
  induction ps generalizing c with
  | nil => simp
  | cons p rest ih =>
    obtain ⟨hp, hr⟩ := List.nodup_cons.mp h
    obtain ⟨h1, h2⟩ := ih hr (plotPoint c p)
    constructor
    · intro x y
      rw [List.foldl_cons, h1, plotPoint, Framebuffer.pixel_toggle]
      by_cases he : (x, y) = p
      · subst he
        simp [hp]
      · have he' : ¬(x = p.1 ∧ y = p.2) := fun hc => he (Prod.ext hc.1 hc.2)
        simp [he, he']
    · rw [List.foldl_cons, h2]
      have hkeep : ∀ q ∈ rest, (plotPoint c p).fb.pixel q.1 q.2 = c.fb.pixel q.1 q.2 := by
        intro q hq
        have : ¬(q.1 = p.1 ∧ q.2 = p.2) := fun hc => hp (Prod.ext hc.1 hc.2 ▸ hq)
        rw [plotPoint, Framebuffer.pixel_toggle, if_neg this]
      simp only [plotPoint, Bool.or_eq_true, List.mem_cons, exists_eq_or_imp, or_assoc]
      refine or_congr_right (or_congr_right ⟨?_, ?_⟩)
      · rintro ⟨q, hq, hc⟩
        exact ⟨q, hq, hkeep q hq ▸ hc⟩
      · rintro ⟨q, hq, hc⟩
        exact ⟨q, hq, (hkeep q hq).symm ▸ hc⟩

theorem mem_spritePoints (x0 y0 : Nat) (rows : List Byte) (x : Fin 64) (y : Fin 32) :
    (x, y) ∈ spritePoints x0 y0 rows ↔ SpriteCovers x0 y0 rows x y := by
  induction rows generalizing y0 with
  | nil => simp [spritePoints, SpriteCovers]
  | cons row rest ih =>
    simp only [spritePoints, List.mem_append, ih, List.mem_map, List.mem_filter, List.mem_range, Prod.mk.injEq]
    constructor
    · rintro (⟨j, ⟨hj, hb⟩, hx, hy⟩ | ⟨i, j, hi, hj, hb, hx, hy⟩)
      · exact ⟨0, j, by simp, hj, by simpa using hb, by rw [← hx]; rfl, by rw [← hy]; rfl⟩
      · exact ⟨i + 1, j, by simpa using hi, hj, by simpa using hb, hx, by rw [hy]; congr 1; omega⟩
    · rintro ⟨i, j, hi, hj, hb, hx, hy⟩
      cases i with
      | zero => exact .inl ⟨j, ⟨hj, by simpa using hb⟩, Fin.ext hx.symm, Fin.ext hy.symm⟩
      | succ i =>
        exact .inr ⟨i, j, by simpa using hi, hj, by simpa using hb, hx, by rw [hy]; congr 1; omega⟩

/-- No pixel is toggled twice by one draw of at most 32 rows (R102). -/
theorem nodup_spritePoints (x0 y0 : Nat) (rows : List Byte) (h : rows.length ≤ 32) :
    (spritePoints x0 y0 rows).Nodup := by
  induction rows generalizing y0 with
  | nil => simp [spritePoints]
  | cons row rest ih =>
    rw [List.length_cons] at h
    rw [spritePoints, List.nodup_append']
    refine ⟨?_, ih _ (by omega), ?_⟩
    · refine List.Nodup.map_on ?_ (List.Nodup.filter _ List.nodup_range)
      intro a ha b hb hab
      have ha := List.mem_range.mp (List.mem_filter.mp ha).1
      have hb := List.mem_range.mp (List.mem_filter.mp hb).1
      have := congrArg Fin.val (congrArg Prod.fst hab)
      simp only [Fin.ofNat] at this
      omega
    · rintro ⟨x, y⟩ h1 h2
      obtain ⟨j, _, he⟩ := List.mem_map.mp h1
      obtain ⟨i, k, hi, _, _, _, hy⟩ := (mem_spritePoints _ _ _ _ _).mp h2
      have := congrArg Fin.val (congrArg Prod.snd he)
      simp only [Fin.ofNat] at this
      omega

/-- What a draw does to every pixel: it flips exactly those a set sprite bit falls on (R102). -/
theorem pixel_blit (x0 y0 : Nat) (rows : List Byte) (c : Canvas) (h : rows.length ≤ 32) (x : Fin 64) (y : Fin 32)
    [Decidable (SpriteCovers x0 y0 rows x y)] :
    (blit x0 y0 rows c).fb.pixel x y = (c.fb.pixel x y ^^ decide (SpriteCovers x0 y0 rows x y)) := by
  rw [blit_eq_foldl, (foldl_plotPoint _ (nodup_spritePoints _ _ _ h) c).1]
  congr 1
  exact decide_eq_decide.mpr (mem_spritePoints _ _ _ _ _)

/-- A draw collides exactly where a set sprite bit falls on a set pixel (R102). -/
theorem collide_blit (x0 y0 : Nat) (rows : List Byte) (c : Canvas) (h : rows.length ≤ 32) :
    (blit x0 y0 rows c).collide = true ↔
      c.collide = true ∨ ∃ x y, SpriteCovers x0 y0 rows x y ∧ c.fb.pixel x y = true := by
  rw [blit_eq_foldl, (foldl_plotPoint _ (nodup_spritePoints _ _ _ h) c).2]
  refine or_congr_right ⟨?_, ?_⟩
  · rintro ⟨⟨x, y⟩, hp, hc⟩
    exact ⟨x, y, (mem_spritePoints _ _ _ _ _).mp hp, hc⟩
  · rintro ⟨x, y, hp, hc⟩
    exact ⟨(x, y), (mem_spritePoints _ _ _ _ _).mpr hp, hc⟩

/-! ### Loading -/

theorem loadBytes_ok {bs : List Byte} {o : Nat} {m : Memory} (h : o + bs.length ≤ 4096) :
    loadBytes bs o m = .ok (m.setBytes o bs) := if_pos h

theorem loadBytes_error {bs : List Byte} {o : Nat} {m : Memory} (h : 4096 < o + bs.length) :
    loadBytes bs o m = .error (.romTooLarge bs.length) := if_neg (Nat.not_le.mpr h)

theorem bootMemory_ok {img : Image} (h : 512 + img.prog.length ≤ 4096) :
    bootMemory img = ((loadFont img []).setBytes 512 img.prog, .running) := by
  rw [bootMemory, loadBytes_ok (o := Config.progBase) h]
  rfl

theorem bootMemory_error {img : Image} (h : 4096 < 512 + img.prog.length) :
    bootMemory img = (loadFont img [], .halted (.romTooLarge img.prog.length)) := by
  simp [bootMemory, loadBytes_error (o := Config.progBase) h]

theorem unlistedByte_high {a : Nat} (h : 80 ≤ a) : unlistedByte a = 0 := by
  rw [unlistedByte, List.getD_eq_getElem?_getD, List.getElem?_eq_none]
  · rfl
  · exact h

/-- The font load on the reset memory leaves the image's font at 0 to 79 and 0 everywhere else (R57, R260). -/
theorem read_loadFont (img : Image) (a : Nat) :
    (loadFont img []).read a = img.font.toList.getD a 0 := by
  rw [loadFont, Memory.read_setBytes]
  by_cases h : a < 80
  · simp [Config.fontBase, h]
  · have h' : 80 ≤ a := by omega
    simp [Config.fontBase, h, Memory.read, unlistedByte_high h', List.getD_eq_getElem?_getD]

theorem wf_loadFont (img : Image) {m : Memory} (h : m.wf = true) : (loadFont img m).wf = true := by
  apply Memory.wf_setBytes _ _ _ _ h
  simp [Config.fontBase, Config.memSize]

theorem wf_bootMemory (img : Image) : (bootMemory img).1.wf = true := by
  by_cases h : 512 + img.prog.length ≤ 4096
  · rw [bootMemory_ok h]
    exact Memory.wf_setBytes _ _ _ h (wf_loadFont img rfl)
  · rw [bootMemory_error (by omega)]
    exact wf_loadFont img rfl

/-! ### The fetch -/

/-- A fetch inside the address space reads the two bytes at `PC`, high byte first (R91). -/
theorem State.fetch_ok (h : s.pc.toNat + 2 ≤ 4096) :
    s.fetch = .ok (wordOfBytes (s.byte s.pc.toNat) (s.byte (s.pc.toNat + 1))) := by
  rw [State.fetch, s.readBytes_ok (.inr h)]
  rfl

theorem State.fetch_error (h : 4095 ≤ s.pc.toNat) :
    s.fetch = .error (.outOfBounds (max s.pc.toNat 4096) s.pc) := by
  rw [State.fetch, s.readBytes_error (by omega) (by omega)]
  rfl

/-! ### The step -/

/-- The event at the head of the environment's list is handled completely (R13). -/
theorem step_event {e : Event} {rest : List Event} (h : s.schedule = e :: rest) :
    step s = handle e { s with schedule := rest } := by
  simp [step, nextEvent, State.nextInput, State.issued, h]

/-- At the end of the environment's list a step is one cycle. -/
theorem step_cycle (h : s.schedule = []) : step s = cycle s := by
  have : s.issued = s := by
    obtain ⟨b, e⟩ := s
    cases e
    simp_all [State.issued]
  simp [step, nextEvent, State.nextInput, h, this, handle]

/-- Where a cycle is the next event, the step is that cycle. -/
theorem step_cycleNext (h : s.CycleNext) : step s = cycle s.issued := by
  rcases h with h | ⟨rest, h⟩ <;> simp [step, nextEvent, State.nextInput, h, handle]

theorem cycle_running (h : s.run = .running) : cycle s = runInstruction s := by
  simp [cycle, h]

theorem cycle_halted {e : Error} (h : s.run = .halted e) : cycle s = .next s := by
  simp [cycle, h]

theorem cycle_awaiting {x : Reg} (h : s.run = .awaitingKey x) : cycle s = .next (s.awaitKeyPoll x) := by
  simp [cycle, h]

/-- What running one instruction can do: fault at the fetch, meet an illegal word, or execute what it decoded (R224). -/
theorem runInstruction_cases :
    (4095 ≤ s.pc.toNat ∧ runInstruction s = .next (s.raise (.outOfBounds (max s.pc.toNat 4096) s.pc))) ∨
      (s.pc.toNat ≤ 4094 ∧ ∃ w, s.fetch = .ok w ∧
        ((∃ r, decodeWord w = .error r ∧ runInstruction s = .next (s.raise (.invalidOpcode w s.pc))) ∨
          ∃ i, decodeWord w = .ok i ∧ runInstruction s = exec i s)) := by
  by_cases h : 4095 ≤ s.pc.toNat
  · exact .inl ⟨h, by simp [runInstruction, s.fetch_error h]⟩
  · refine .inr ⟨by omega, _, s.fetch_ok (by omega), ?_⟩
    cases hd : decodeWord (wordOfBytes (s.byte s.pc.toNat) (s.byte (s.pc.toNat + 1))) with
    | error r => exact .inl ⟨r, rfl, by simp [runInstruction, s.fetch_ok (by omega), hd]⟩
    | ok i => exact .inr ⟨i, rfl, by simp [runInstruction, s.fetch_ok (by omega), hd]⟩

end Sys2Proof.Machine
end

