-- ==== Sys2Proof/Laws/PerInstr.lean ====
section
/-! SUPPORT. A statement about every instruction as syntax, one lemma per constructor: its encoding is a legal word of the
opcode table (30_encoding.md R72, R80). -/

namespace Sys2Proof.Laws.EncodesLegally

/-- The word the encoder gives fits a row of the opcode table. -/
def Statement (i : Instr) : Prop := wordLegal (encode i) = true

/-- A word that fits some row of the table is legal. -/
theorem legal_of_fits {w : Word} {r : OpcodeRow} (hr : r ∈ opcodeRows) (h : w &&& r.mask = r.pattern) :
    wordLegal w = true := by
  rw [wordLegal, List.any_eq_true]
  exact ⟨r, hr, by simpa [OpcodeRow.fits] using h⟩

theorem cls : Statement .cls := show wordLegal (encode .cls) = true by decide

theorem ret : Statement .ret := show wordLegal (encode .ret) = true by decide

theorem jp (nnn : Addr) : Statement (.jp nnn) :=
  legal_of_fits (r := ⟨"JP", 0x1000, 0xF000⟩) (by decide) ((wordA_fixed _ _).trans (by decide))

theorem call (nnn : Addr) : Statement (.call nnn) :=
  legal_of_fits (r := ⟨"CALL", 0x2000, 0xF000⟩) (by decide) ((wordA_fixed _ _).trans (by decide))

theorem seImm (x : Reg) (nn : Byte) : Statement (.seImm x nn) :=
  legal_of_fits (r := ⟨"SE_IMM", 0x3000, 0xF000⟩) (by decide) ((wordXB_fixed _ _ _).trans (by decide))

theorem sneImm (x : Reg) (nn : Byte) : Statement (.sneImm x nn) :=
  legal_of_fits (r := ⟨"SNE_IMM", 0x4000, 0xF000⟩) (by decide) ((wordXB_fixed _ _ _).trans (by decide))

theorem seReg (x y : Reg) : Statement (.seReg x y) :=
  legal_of_fits (r := ⟨"SE_REG", 0x5000, 0xF00F⟩) (by decide) ((wordXY_fixed _ _ _).trans (by decide))

theorem ldImm (x : Reg) (nn : Byte) : Statement (.ldImm x nn) :=
  legal_of_fits (r := ⟨"LD_IMM", 0x6000, 0xF000⟩) (by decide) ((wordXB_fixed _ _ _).trans (by decide))

theorem addImm (x : Reg) (nn : Byte) : Statement (.addImm x nn) :=
  legal_of_fits (r := ⟨"ADD_IMM", 0x7000, 0xF000⟩) (by decide) ((wordXB_fixed _ _ _).trans (by decide))

theorem ldReg (x y : Reg) : Statement (.ldReg x y) :=
  legal_of_fits (r := ⟨"LD_REG", 0x8000, 0xF00F⟩) (by decide) ((wordXY_fixed _ _ _).trans (by decide))

theorem orReg (x y : Reg) : Statement (.orReg x y) :=
  legal_of_fits (r := ⟨"OR", 0x8001, 0xF00F⟩) (by decide) ((wordXY_fixed _ _ _).trans (by decide))

theorem andReg (x y : Reg) : Statement (.andReg x y) :=
  legal_of_fits (r := ⟨"AND", 0x8002, 0xF00F⟩) (by decide) ((wordXY_fixed _ _ _).trans (by decide))

theorem xorReg (x y : Reg) : Statement (.xorReg x y) :=
  legal_of_fits (r := ⟨"XOR", 0x8003, 0xF00F⟩) (by decide) ((wordXY_fixed _ _ _).trans (by decide))

theorem addReg (x y : Reg) : Statement (.addReg x y) :=
  legal_of_fits (r := ⟨"ADD_REG", 0x8004, 0xF00F⟩) (by decide) ((wordXY_fixed _ _ _).trans (by decide))

theorem sub (x y : Reg) : Statement (.sub x y) :=
  legal_of_fits (r := ⟨"SUB", 0x8005, 0xF00F⟩) (by decide) ((wordXY_fixed _ _ _).trans (by decide))

theorem shr (x y : Reg) : Statement (.shr x y) :=
  legal_of_fits (r := ⟨"SHR", 0x8006, 0xF00F⟩) (by decide) ((wordXY_fixed _ _ _).trans (by decide))

theorem subn (x y : Reg) : Statement (.subn x y) :=
  legal_of_fits (r := ⟨"SUBN", 0x8007, 0xF00F⟩) (by decide) ((wordXY_fixed _ _ _).trans (by decide))

theorem shl (x y : Reg) : Statement (.shl x y) :=
  legal_of_fits (r := ⟨"SHL", 0x800E, 0xF00F⟩) (by decide) ((wordXY_fixed _ _ _).trans (by decide))

theorem sneReg (x y : Reg) : Statement (.sneReg x y) :=
  legal_of_fits (r := ⟨"SNE_REG", 0x9000, 0xF00F⟩) (by decide) ((wordXY_fixed _ _ _).trans (by decide))

theorem ldI (nnn : Addr) : Statement (.ldI nnn) :=
  legal_of_fits (r := ⟨"LD_I", 0xA000, 0xF000⟩) (by decide) ((wordA_fixed _ _).trans (by decide))

theorem jpV0 (nnn : Addr) : Statement (.jpV0 nnn) :=
  legal_of_fits (r := ⟨"JP_V0", 0xB000, 0xF000⟩) (by decide) ((wordA_fixed _ _).trans (by decide))

theorem rnd (x : Reg) (nn : Byte) : Statement (.rnd x nn) :=
  legal_of_fits (r := ⟨"RND", 0xC000, 0xF000⟩) (by decide) ((wordXB_fixed _ _ _).trans (by decide))

theorem drw (x y : Reg) (n : BitVec 4) : Statement (.drw x y n) :=
  legal_of_fits (r := ⟨"DRW", 0xD000, 0xF000⟩) (by decide) ((wordXYN_fixed _ _ _ _).trans (by decide))

theorem skp (x : Reg) : Statement (.skp x) :=
  legal_of_fits (r := ⟨"SKP", 0xE09E, 0xF0FF⟩) (by decide) ((wordX_fixed _ _).trans (by decide))

theorem sknp (x : Reg) : Statement (.sknp x) :=
  legal_of_fits (r := ⟨"SKNP", 0xE0A1, 0xF0FF⟩) (by decide) ((wordX_fixed _ _).trans (by decide))

theorem ldVxDt (x : Reg) : Statement (.ldVxDt x) :=
  legal_of_fits (r := ⟨"LD_VX_DT", 0xF007, 0xF0FF⟩) (by decide) ((wordX_fixed _ _).trans (by decide))

theorem ldVxK (x : Reg) : Statement (.ldVxK x) :=
  legal_of_fits (r := ⟨"LD_VX_K", 0xF00A, 0xF0FF⟩) (by decide) ((wordX_fixed _ _).trans (by decide))

theorem ldDtVx (x : Reg) : Statement (.ldDtVx x) :=
  legal_of_fits (r := ⟨"LD_DT_VX", 0xF015, 0xF0FF⟩) (by decide) ((wordX_fixed _ _).trans (by decide))

theorem ldStVx (x : Reg) : Statement (.ldStVx x) :=
  legal_of_fits (r := ⟨"LD_ST_VX", 0xF018, 0xF0FF⟩) (by decide) ((wordX_fixed _ _).trans (by decide))

theorem addIVx (x : Reg) : Statement (.addIVx x) :=
  legal_of_fits (r := ⟨"ADD_I_VX", 0xF01E, 0xF0FF⟩) (by decide) ((wordX_fixed _ _).trans (by decide))

theorem ldFVx (x : Reg) : Statement (.ldFVx x) :=
  legal_of_fits (r := ⟨"LD_F_VX", 0xF029, 0xF0FF⟩) (by decide) ((wordX_fixed _ _).trans (by decide))

theorem ldBVx (x : Reg) : Statement (.ldBVx x) :=
  legal_of_fits (r := ⟨"LD_B_VX", 0xF033, 0xF0FF⟩) (by decide) ((wordX_fixed _ _).trans (by decide))

theorem ldMemVx (x : Reg) : Statement (.ldMemVx x) :=
  legal_of_fits (r := ⟨"LD_MEM_VX", 0xF055, 0xF0FF⟩) (by decide) ((wordX_fixed _ _).trans (by decide))

theorem ldVxMem (x : Reg) : Statement (.ldVxMem x) :=
  legal_of_fits (r := ⟨"LD_VX_MEM", 0xF065, 0xF0FF⟩) (by decide) ((wordX_fixed _ _).trans (by decide))

end Sys2Proof.Laws.EncodesLegally
end

