-- ==== Sys2Proof/Tests/Slice0.lean ====
section
/-! SUPPORT. Tests: every constructor's word written out from the spec's encoding, the words the decoder and the table refuse,
one-step tests with the results that 95_test_vectors.md gives, and for every statement with hypotheses a named theorem that
meets them, clause by clause. -/

open Sys2Proof Sys2Proof.Machine

namespace Sys2Proof.Tests

/-! ### Helpers -/

/-- The reset state with these registers and this `I` (the start state of 95_test_vectors.md). -/
def start (regs : List (Reg × Byte)) (index : Word := 0) : State :=
  (regs.foldl (fun s p => s.setReg p.1 p.2) State.reset).setIndex index

/-- What one step reaches from the state with this word at `PC`, seen through `f`; `none` if it is no next state. -/
def after {α : Type} (s : State) (w : Nat) (f : State → α) : Option α :=
  match step (s.withFetchWord 16 w) with
  | .next t => some (f t)
  | _ => none

/-- What one event reaches, seen through `f`. -/
def event {α : Type} (e : Event) (s : State) (f : State → α) : Option α :=
  match step { s with schedule := [e] } with
  | .next t => some (f t)
  | _ => none

/-- The number of set pixels. -/
def pixelCount (fb : Framebuffer) : Nat := (fb.toList.map fun col => col.toList.count true).sum

/-- The set pixels of a row. -/
def rowPixels (fb : Framebuffer) (y : Fin 32) : List Nat := (List.range 64).filter fun x => fb.pixel (Fin.ofNat 64 x) y

/-- A state whose memory holds these bytes from the address on. -/
def poke (s : State) (a : Nat) (bs : List Byte) : State := s.setMem (s.mem.setBytes a bs)

/-- A state stopped by an error. -/
def halted (s : State) : State := s.raise (.stackUnderflow 0x200)

/-! ### Decoding: one word for each constructor, from the `Encoding` lines of files 40 to 44 -/

theorem test_decode_cls : decodeWord 0b0000_0000_1110_0000 = .ok .cls := by decide
theorem test_decode_ret : decodeWord 0b0000_0000_1110_1110 = .ok .ret := by decide
theorem test_decode_jp : decodeWord 0b0001_1010_1011_1100 = .ok (.jp 0xABC) := by decide
theorem test_decode_call : decodeWord 0b0010_0100_0000_0001 = .ok (.call 0x401) := by decide
theorem test_decode_se_imm : decodeWord 0b0011_1010_0000_0101 = .ok (.seImm 0xA 0x05) := by decide
theorem test_decode_sne_imm : decodeWord 0b0100_1010_1000_0101 = .ok (.sneImm 0xA 0x85) := by decide
theorem test_decode_se_reg : decodeWord 0b0101_0001_0010_0000 = .ok (.seReg 1 2) := by decide
theorem test_decode_ld_imm : decodeWord 0b0110_1010_1001_1101 = .ok (.ldImm 0xA 0x9D) := by decide
theorem test_decode_add_imm : decodeWord 0b0111_0001_1111_1111 = .ok (.addImm 1 0xFF) := by decide
theorem test_decode_ld_reg : decodeWord 0b1000_0001_0010_0000 = .ok (.ldReg 1 2) := by decide
theorem test_decode_or : decodeWord 0b1000_0001_0010_0001 = .ok (.orReg 1 2) := by decide
theorem test_decode_and : decodeWord 0b1000_0001_0010_0010 = .ok (.andReg 1 2) := by decide
theorem test_decode_xor : decodeWord 0b1000_0001_0010_0011 = .ok (.xorReg 1 2) := by decide
theorem test_decode_add_reg : decodeWord 0b1000_0001_0011_0100 = .ok (.addReg 1 3) := by decide
theorem test_decode_sub : decodeWord 0b1000_0001_0010_0101 = .ok (.sub 1 2) := by decide
theorem test_decode_shr : decodeWord 0b1000_0000_0001_0110 = .ok (.shr 0 1) := by decide
theorem test_decode_subn : decodeWord 0b1000_0001_0010_0111 = .ok (.subn 1 2) := by decide
theorem test_decode_shl : decodeWord 0b1000_0000_1111_1110 = .ok (.shl 0 0xF) := by decide
theorem test_decode_sne_reg : decodeWord 0b1001_0001_0010_0000 = .ok (.sneReg 1 2) := by decide
theorem test_decode_ld_i : decodeWord 0b1010_0011_0000_0001 = .ok (.ldI 0x301) := by decide
theorem test_decode_jp_v0 : decodeWord 0b1011_1111_1111_1111 = .ok (.jpV0 0xFFF) := by decide
theorem test_decode_rnd : decodeWord 0b1100_0011_0000_1111 = .ok (.rnd 3 0x0F) := by decide
theorem test_decode_drw : decodeWord 0b1101_0000_0001_0101 = .ok (.drw 0 1 5) := by decide
theorem test_decode_skp : decodeWord 0b1110_0001_1001_1110 = .ok (.skp 1) := by decide
theorem test_decode_sknp : decodeWord 0b1110_0001_1010_0001 = .ok (.sknp 1) := by decide
theorem test_decode_ld_vx_dt : decodeWord 0b1111_0001_0000_0111 = .ok (.ldVxDt 1) := by decide
theorem test_decode_ld_vx_k : decodeWord 0b1111_0011_0000_1010 = .ok (.ldVxK 3) := by decide
theorem test_decode_ld_dt_vx : decodeWord 0b1111_1010_0001_0101 = .ok (.ldDtVx 0xA) := by decide
theorem test_decode_ld_st_vx : decodeWord 0b1111_0010_0001_1000 = .ok (.ldStVx 2) := by decide
theorem test_decode_add_i_vx : decodeWord 0b1111_0010_0001_1110 = .ok (.addIVx 2) := by decide
theorem test_decode_ld_f_vx : decodeWord 0b1111_0000_0010_1001 = .ok (.ldFVx 0) := by decide
theorem test_decode_ld_b_vx : decodeWord 0b1111_1010_0011_0011 = .ok (.ldBVx 0xA) := by decide
theorem test_decode_ld_mem_vx : decodeWord 0b1111_0011_0101_0101 = .ok (.ldMemVx 3) := by decide
theorem test_decode_ld_vx_mem : decodeWord 0b1111_0010_0110_0101 = .ok (.ldVxMem 2) := by decide

/-! ### Words the table and the decoder refuse, one for each check (95_test_vectors.md section 2.1) -/

theorem test_illformed_group0 : wordLegal 0x0123 = false ∧ decodeWord 0x0123 = .error .group0 := by decide
theorem test_illformed_zero : wordLegal 0x0000 = false ∧ decodeWord 0x0000 = .error .group0 := by decide
theorem test_illformed_group5 : wordLegal 0x5AAA = false ∧ decodeWord 0x5AAA = .error .group5 := by decide
theorem test_illformed_group8 : wordLegal 0x8008 = false ∧ decodeWord 0x8008 = .error .group8 := by decide
theorem test_illformed_group8_f : wordLegal 0x800F = false ∧ decodeWord 0x800F = .error .group8 := by decide
theorem test_illformed_group9 : wordLegal 0x9AB1 = false ∧ decodeWord 0x9AB1 = .error .group9 := by decide
theorem test_illformed_groupE : wordLegal 0xE19F = false ∧ decodeWord 0xE19F = .error .groupE := by decide
theorem test_illformed_groupF : wordLegal 0xF01F = false ∧ decodeWord 0xF01F = .error .groupF := by decide
theorem test_illformed_short : decode [0x12] = .error .truncated := by decide
theorem test_wellformed_shift_ignores_y : wordLegal 0x8016 = true ∧ wordLegal 0x80FE = true := by decide
theorem test_table_has_34_rows : opcodeRows.length = 34 := by decide
theorem test_decode_leaves_the_rest : decode [0x60, 0x12, 0x61] = .ok (.ldImm 0 0x12, [0x61]) := by decide
theorem test_decodeTableWord : decodeTableWord 16 0xD015 = some (.drw 0 1 5) ∧ decodeTableWord 16 0x5AAA = none := by decide

/-! ### One step: control transfer (section 2.3) -/

theorem test_jp : after State.reset 0x1ABC (fun t => t.pc) = some 0xABC := by decide
/-- An odd target is taken as it is (section 2.2). -/
theorem test_jp_odd : after State.reset 0x1203 (fun t => (t.pc, t.run)) = some (0x203, .running) := by decide
theorem test_call : after State.reset 0x2400 (fun t => (t.stack, t.pc)) = some ([0x202], 0x400) := by decide
theorem test_ret : after (((State.reset).setStack [0x300, 0x202]).setPc 0x412) 0x00EE (fun t => (t.stack, t.pc)) = some ([0x300], 0x202) := by decide
theorem test_ret_empty : after State.reset 0x00EE (fun t => (t.run, t.pc)) = some (.halted (.stackUnderflow 0x200), 0x200) := by decide
/-- A full stack of 16 entries overflows where STACK_DEPTH is 16; the depth is a parameter, so the length is named. -/
theorem test_call_full (s : State) (h : s.stack = List.replicate stackDepth 0x202) :
    execCall 0x200 s = .next (s.raise (.stackOverflow s.pc)) := by
  have hl : ¬ s.stack.length < stackDepth := by rw [h, List.length_replicate]; exact Nat.lt_irrefl _
  rw [execCall, State.push, if_neg hl]; rfl
theorem test_jp_v0 : after (start [(0, 0x10)]) 0xB300 (fun t => t.pc) = some 0x310 := by decide
theorem test_jp_v0_exact : after (start [(0, 0xFF)]) 0xBFFF (fun t => t.pc) = some 0x10FE := by decide
theorem test_se_imm_equal : after (start [(0xA, 5)]) 0x3A05 (fun t => t.pc) = some 0x204 := by decide
theorem test_se_imm_unequal : after (start [(0xA, 6)]) 0x3A05 (fun t => t.pc) = some 0x202 := by decide
theorem test_sne_imm_unequal : after (start [(0xA, 6)]) 0x4A05 (fun t => t.pc) = some 0x204 := by decide
theorem test_sne_imm_equal : after (start [(0xA, 5)]) 0x4A05 (fun t => t.pc) = some 0x202 := by decide
theorem test_se_reg_equal : after (start [(1, 3), (2, 3)]) 0x5120 (fun t => t.pc) = some 0x204 := by decide
theorem test_se_reg_unequal : after (start [(1, 3), (2, 4)]) 0x5120 (fun t => t.pc) = some 0x202 := by decide
theorem test_sne_reg_equal : after (start [(1, 3), (2, 3)]) 0x9120 (fun t => t.pc) = some 0x202 := by decide
theorem test_sne_reg_unequal : after (start [(1, 3), (2, 4)]) 0x9120 (fun t => t.pc) = some 0x204 := by decide

/-! ### One step: arithmetic and logic (section 2.4) -/

theorem test_ld_imm : after State.reset 0x6A9D (fun t => (t.reg 0xA, t.pc)) = some (0x9D, 0x202) := by decide
theorem test_add_imm_wraps : after (start [(1, 5), (0xF, 0x55)]) 0x71FF (fun t => (t.reg 1, t.reg vf)) = some (0x04, 0x55) := by decide
theorem test_add_imm_vf : after (start [(0xF, 0xFF)]) 0x7F01 (fun t => t.reg vf) = some 0x00 := by decide
theorem test_ld_reg : after (start [(2, 0x42)]) 0x8120 (fun t => (t.reg 1, t.reg 2)) = some (0x42, 0x42) := by decide
theorem test_or : after (start [(1, 0xF0), (2, 0x3C), (0xF, 0x55)]) 0x8121 (fun t => (t.reg 1, t.reg vf)) = some (0xFC, 0x55) := by decide
theorem test_and : after (start [(1, 0xF0), (2, 0x3C), (0xF, 0x55)]) 0x8122 (fun t => (t.reg 1, t.reg vf)) = some (0x30, 0x55) := by decide
theorem test_xor : after (start [(1, 0xF0), (2, 0x3C), (0xF, 0x55)]) 0x8123 (fun t => (t.reg 1, t.reg vf)) = some (0xCC, 0x55) := by decide
theorem test_add_reg : after (start [(1, 0xF0), (3, 0x35)]) 0x8134 (fun t => (t.reg 1, t.reg vf)) = some (0x25, 1) := by decide
theorem test_add_reg_into_vf : after (start [(0xF, 0xFF), (1, 0x01)]) 0x8F14 (fun t => t.reg vf) = some 1 := by decide
theorem test_sub_no_borrow : after (start [(2, 5)]) 0x8225 (fun t => (t.reg 2, t.reg vf)) = some (0, 1) := by decide
theorem test_sub_borrow : after (start [(0, 3), (1, 5)]) 0x8015 (fun t => (t.reg 0, t.reg vf)) = some (0xFE, 0) := by decide
theorem test_subn_no_borrow : after (start [(1, 0x01), (2, 0x10)]) 0x8127 (fun t => (t.reg 1, t.reg vf)) = some (0x0F, 1) := by decide
theorem test_subn_borrow : after (start [(1, 5), (2, 3)]) 0x8127 (fun t => (t.reg 1, t.reg vf)) = some (0xFE, 0) := by decide
theorem test_shr : after (start [(0, 0x05), (1, 0xFF)]) 0x8016 (fun t => (t.reg 0, t.reg 1, t.reg vf)) = some (0x02, 0xFF, 1) := by decide
theorem test_shr_into_vf : after (start [(0xF, 0x02)]) 0x8F06 (fun t => t.reg vf) = some 0 := by decide
theorem test_shl : after (start [(0, 0x81)]) 0x800E (fun t => (t.reg 0, t.reg vf)) = some (0x02, 1) := by decide
theorem test_shl_into_vf : after (start [(0xF, 0x80)]) 0x8F0E (fun t => t.reg vf) = some 1 := by decide
/-- The environment's answers in store. -/
def answering (as : List Answer) (s : State) : State := { s with answers := as }

theorem test_rnd : after (answering [.rand8 0xAB, .rand8 0x11] State.reset) 0xC30F (fun t => (t.reg 3, t.draws, t.answers)) = some (0x0B, 1, [.rand8 0x11]) := by decide
/-- Whatever the byte drawn, the mask 0 gives 0. -/
theorem test_rnd_mask_zero (s : State) : (execRnd 3 0 s) = .next ((s.drawn.setReg 3 0).advance) := by
  simp [execRnd]

/-! ### One step: index and memory (section 2.5) -/

theorem test_ld_i : after State.reset 0xA300 (fun t => t.index) = some 0x300 := by decide
theorem test_add_i_vx_above_memory : after (start [(1, 1), (0xF, 7)] 0x0FFF) 0xF11E (fun t => (t.index, t.reg vf, t.run)) = some (0x1000, 7, .running) := by decide
theorem test_add_i_vx_wraps : after (start [(1, 2)] 0xFFFF) 0xF11E (fun t => t.index) = some 0x0001 := by decide
theorem test_ld_f_vx : after (start [(0, 0x0A)]) 0xF029 (fun t => t.index) = some 0x32 := by decide
theorem test_ld_f_vx_unmasked : after (start [(0, 0xFF)]) 0xF029 (fun t => t.index) = some 0x4FB := by decide
theorem test_ld_b_vx : after (start [(0, 157)] 0x300) 0xF033 (fun t => ([t.byte 0x300, t.byte 0x301, t.byte 0x302, t.byte 0x303], t.index)) = some ([1, 5, 7, 0], 0x300) := by decide
theorem test_ld_b_vx_past_the_end : after (start [(0, 123)] 0xFFE) 0xF033 (fun t => (t.run, t.byte 0xFFE, t.byte 0xFFF, t.pc)) = some (.halted (.outOfBounds 0x1000 0x200), 0, 0, 0x200) := by decide
theorem test_ld_mem_vx : after (start [(0, 0x11), (1, 0x22), (2, 0x33), (3, 0x44)] 0x300) 0xF355 (fun t => ([t.byte 0x300, t.byte 0x301, t.byte 0x302, t.byte 0x303], t.index)) = some ([0x11, 0x22, 0x33, 0x44], 0x300) := by decide
theorem test_ld_mem_vx_past_the_end : after (start [(0, 1)] 0xFF5) 0xFF55 (fun t => (t.run, t.byte 0xFF5)) = some (.halted (.outOfBounds 0x1000 0x200), 0) := by decide
theorem test_ld_vx_mem_one : after (poke (start [(1, 0x77)] 0x300) 0x300 [0xAB, 0xCD]) 0xF065 (fun t => (t.reg 0, t.reg 1, t.index)) = some (0xAB, 0x77, 0x300) := by decide
theorem test_ld_vx_mem_past_the_end : after (start [(0, 9)] 0xFF5) 0xFF65 (fun t => (t.run, t.reg 0)) = some (.halted (.outOfBounds 0x1000 0x200), 9) := by decide

/-! ### One step: display (section 2.6) -/

theorem test_cls : after ((State.reset).setFb ((Framebuffer.clear).toggle 3 4)) 0x00E0 (fun t => (pixelCount t.fb, t.pulses)) = some (0, [.fbClear]) := by decide
/-- Glyph 0 of the default font at (64, 32), which is (0, 0). -/
theorem test_drw_glyph_wraps_start : after (start [(0, 0x40), (1, 0x20)]) 0xD015 (fun t => ((List.range 6).map fun y => rowPixels t.fb (Fin.ofNat 32 y), t.reg vf)) = some ([[0, 1, 2, 3], [0, 3], [0, 3], [0, 3], [0, 1, 2, 3], []], 0) := by decide
/-- Across both edges (P5). -/
theorem test_drw_edges : after (poke (start [(0, 0x3E), (1, 0x1F)] 0x300) 0x300 [0xFF, 0x81]) 0xD012 (fun t => (rowPixels t.fb 31, rowPixels t.fb 0)) = some ([0, 1, 2, 3, 4, 5, 62, 63], [5, 62]) := by decide
theorem test_drw_no_rows : after (start [(0xF, 7)] 0x1000) 0xD120 (fun t => (t.reg vf, t.run)) = some (0, .running) := by decide
theorem test_drw_past_the_end : after (start [(0xF, 7)] 0xFFF) 0xD122 (fun t => (t.reg vf, t.run)) = some (7, .halted (.outOfBounds 0x1000 0x200)) := by decide

/-! ### One step: keys and timers (section 2.7) -/

theorem test_skp_down : after (answering [.keyDown true] (start [(1, 5)])) 0xE19E (fun t => t.pc) = some 0x204 := by decide
theorem test_skp_up : after (answering [.keyDown false] (start [(1, 0x20)])) 0xE19E (fun t => t.pc) = some 0x202 := by decide
theorem test_sknp_up : after (answering [.keyDown false] (start [(1, 5)])) 0xE1A1 (fun t => t.pc) = some 0x204 := by decide
theorem test_sknp_down : after (answering [.keyDown true] (start [(1, 5)])) 0xE1A1 (fun t => t.pc) = some 0x202 := by decide
theorem test_ld_vx_k : after State.reset 0xF30A (fun t => (t.run, t.pc)) = some (.awaitingKey 3, 0x200) := by decide
theorem test_ld_vx_dt : after ((State.reset).setDt 0x3C) 0xF107 (fun t => t.reg 1) = some 0x3C := by decide
theorem test_ld_dt_vx : after (start [(0xA, 5)]) 0xFA15 (fun t => t.dt) = some 5 := by decide
theorem test_ld_st_vx : after (start [(2, 0x1E)]) 0xF218 (fun t => (t.st, t.tone)) = some (30, true) := by decide
theorem test_ld_st_vx_zero : after ((State.reset).setSt 5) 0xF018 (fun t => (t.st, t.tone)) = some (0, false) := by decide

/-! ### One event -/

theorem test_poll_none : event .cycle (answering [.keyEvent none] ((State.reset).setRun (.awaitingKey 3))) (fun t => (t.run, t.pc, t.reg 3)) = some (.awaitingKey 3, 0x200, 0) := by decide
theorem test_poll_key : event .cycle (answering [.keyEvent (some 7)] ((State.reset).setRun (.awaitingKey 3))) (fun t => (t.reg 3, t.pc, t.run)) = some (7, 0x202, .running) := by decide
theorem test_tick_both : event .tick (((State.reset).setDt 3).setSt 1) (fun t => (t.dt, t.st, t.tone, t.pulses)) = some (2, 0, false, [.redraw]) := by decide
theorem test_tick_at_zero : event .tick State.reset (fun t => (t.dt, t.st)) = some (0, 0) := by decide
theorem test_tick_halted : event .tick ((halted State.reset).setDt 2) (fun t => (t.dt, t.run)) = some (1, .halted (.stackUnderflow 0x200)) := by decide
theorem test_cycle_halted : event .cycle (halted State.reset) (fun t => (t.pc, t.run)) = some (0x200, .halted (.stackUnderflow 0x200)) := by decide
theorem test_rst_halted : event .rst (halted (start [(1, 7)] 0x300)) (fun t => (t.run, t.reg 1, t.index, t.pc)) = some (.running, 0, 0, 0x200) := by decide
theorem test_load_places_the_program : event (.load ⟨Config.font, [0x12, 0x03]⟩) State.reset (fun t => (t.byte 0, t.byte 79, t.byte 0x200, t.byte 0x201, t.byte 0x202)) = some (0xF0, 0x80, 0x12, 0x03, 0) := by decide
theorem test_empty_program_halts : event .cycle State.reset (fun t => t.run) = some (.halted (.invalidOpcode 0x0000 0x200)) := by decide

/-- Word 0x5AAA halts and does not skip (L1-8). -/
theorem test_illegal_group5 : after State.reset 0x5AAA (fun t => (t.run, t.pc)) =
    some (.halted (.invalidOpcode 0x5AAA 0x200), 0x200) := by decide

/-- The byte at 0xFFF exists and 0x1000 does not (section 2.2). -/
theorem test_fetch_at_4095 : event .cycle ((State.reset).setPc 0xFFF) (fun t => (t.run, t.pc)) =
    some (.halted (.outOfBounds 0x1000 0xFFF), 0xFFF) := by decide

/-- An instruction in the last two cells runs, and leaves `PC` at 0x1000 (section 2.2). -/
theorem test_fetch_at_4094 : event .cycle (poke ((State.reset).setPc 0xFFE) 0xFFE [0x6A, 0x01])
    (fun t => (t.reg 0xA, t.pc)) = some (0x01, 0x1000) := by decide

/-- 3584 bytes load (section 2.8). -/
theorem test_load_3584 : loadBytes (List.replicate 3584 0) 512 [] =
    .ok (Memory.setBytes [] 512 (List.replicate 3584 0)) := by
  rw [loadBytes, if_pos (by rw [List.length_replicate]; decide)]

/-- 3585 bytes do not (section 2.8). -/
theorem test_load_3585 : loadBytes (List.replicate 3585 0) 512 [] = .error (.romTooLarge 3585) := by
  rw [loadBytes, if_neg (by rw [List.length_replicate]; decide), List.length_replicate]

/-- The codes of decision D15. -/
theorem test_error_codes : [Error.invalidOpcode 0 0, .outOfBounds 0 0, .stackOverflow 0, .stackUnderflow 0,
    .romTooLarge 0].map Error.code = [1, 2, 3, 4, 5] := by decide

/-- Loading the default font and no program into blank memory leaves the reset memory: the model's form of it agrees with the
spec's order of reset and load (R44, R265). -/
theorem test_boot_is_reset : State.reset.rst = State.reset := by decide

/-- Glyph A of the default font, read from reset memory (92_eei_decisions.md section 2). -/
theorem test_reset_font : (List.range 5).map (fun k => State.reset.byte (50 + k)) = [0xF0, 0x90, 0xF0, 0x90, 0x90] := by
  decide

/-- A write of the byte an unlisted cell holds removes the entry. -/
theorem test_memory_is_canonical : ((Memory.set [] 700 5).set 600 6).set 700 0 = [(600, 6)] := by decide


/-- The block's record has the nine fields of R20 and no other: two blocks with those equal are equal. -/
theorem test_block_is_the_record (a b : Block) (h : (a.v, a.index, a.pc, a.stack, a.dt, a.st, a.fb, a.mem, a.run) =
    (b.v, b.index, b.pc, b.stack, b.dt, b.st, b.fb, b.mem, b.run)) : a = b := by
  cases a; cases b; simpa using h

/-! ### Witnesses: for every statement with hypotheses, a state and operands that meet them, at boundary values -/

/-- An image with a program of this length. -/
def imageOf (n : Nat) : Image := ⟨Config.font, List.replicate n 1⟩

theorem imageOf_length (n : Nat) : (imageOf n).prog.length = n := List.length_replicate

theorem rst_with_program (n : Nat) : ∃ (s : State) (rest : List Event), s.schedule = .rst :: rest ∧
    s.image.prog.length = n :=
  ⟨{ State.reset with schedule := [.rst], image := imageOf n }, [], rfl, imageOf_length n⟩

/-- The longest program that fits: 512 + 3584 = 4096. -/
theorem witness_rst_fits : ∃ (s : State) (rest : List Event), s.schedule = .rst :: rest ∧
    s.image.prog.length = 3584 := rst_with_program 3584

/-- The shortest that does not. -/
theorem witness_rst_does_not_fit : ∃ (s : State) (rest : List Event), s.schedule = .rst :: rest ∧
    s.image.prog.length = 3585 := rst_with_program 3585

theorem witness_load_fits : ∃ (s : State) (img : Image) (rest : List Event), s.schedule = .load img :: rest ∧ s.Safe ∧
    512 + img.prog.length = 4096 :=
  ⟨{ State.reset with schedule := [.load (imageOf 3584)] }, imageOf 3584, [], rfl, nofun, by rw [imageOf_length]⟩

theorem witness_load_does_not_fit : ∃ (s : State) (img : Image) (rest : List Event), s.schedule = .load img :: rest ∧
    512 + img.prog.length = 4097 :=
  ⟨{ State.reset with schedule := [.load (imageOf 3585)] }, imageOf 3585, [], rfl, by rw [imageOf_length]⟩

theorem witness_tick : ∃ (s : State) (rest : List Event), s.schedule = .tick :: rest ∧ s.dt = 0 ∧ s.st = 1 :=
  ⟨{ State.reset with schedule := [.tick], st := 1 }, [], rfl, rfl, rfl⟩

/-- The 600 ticks of L1-6, from 255. -/
theorem witness_ticks : ∃ (s : State) (rest : List Event), s.schedule = List.replicate 600 .tick ++ rest ∧
    s.dt = 255 ∧ s.st = 1 :=
  ⟨{ State.reset with schedule := List.replicate 600 .tick ++ [.cycle], dt := 255, st := 1 }, [.cycle], rfl, rfl, rfl⟩

theorem witness_encoding_a_decoding : decodeWord 0xD015 = .ok (.drw 0 1 5) := by decide

theorem witness_table_rows : ⟨"SHL", 0x800E, 0xF00F⟩ ∈ opcodeRows ∧
    OpcodeRow.fits ⟨"SHL", 0x800E, 0xF00F⟩ 0x80FE = true := by decide

theorem witness_step_at_the_end_of_the_list : ∃ (s : State) (i : Instr), s.run = .running ∧ s.pc.toNat + 2 = 4096 ∧
    decode [s.byte s.pc.toNat, s.byte (s.pc.toNat + 1)] = .ok (i, []) ∧ s.schedule = [] :=
  ⟨(poke State.reset 0xFFE [0x6A, 0x01]).setPc 0xFFE, .ldImm 0xA 1, by decide⟩

theorem witness_step_at_a_cycle : ∃ (s : State) (i : Instr) (rest : List Event), s.run = .running ∧
    s.pc.toNat + 2 ≤ 4096 ∧ decode [s.byte s.pc.toNat, s.byte (s.pc.toNat + 1)] = .ok (i, []) ∧
    s.schedule = .cycle :: rest :=
  ⟨{ poke State.reset 512 [0xD0, 0x15] with schedule := [.cycle, .tick] }, .drw 0 1 5, [.tick], by decide⟩

theorem witness_illegal_word : ∃ (s : State) (w : Word), s.CycleNext ∧ s.run = .running ∧ s.pc.toNat + 2 ≤ 4096 ∧
    w = s.byte s.pc.toNat ++ s.byte (s.pc.toNat + 1) ∧ wordLegal w = false :=
  ⟨poke State.reset 512 [0x5A, 0xAA], 0x5AAA, .inl rfl, by decide⟩

theorem witness_fetch_4095 : ∃ s : State, s.CycleNext ∧ s.run = .running ∧ s.pc.toNat = 4095 :=
  ⟨(State.reset).setPc 0xFFF, .inl rfl, by decide⟩

theorem witness_fetch_4096 : ∃ s : State, s.CycleNext ∧ s.run = .running ∧ s.pc.toNat = 4096 :=
  ⟨(State.reset).setPc 0x1000, .inl rfl, by decide⟩

theorem witness_halted_cycle : ∃ (s : State) (e : Error), s.run = .halted e ∧ s.CycleNext :=
  ⟨halted State.reset, _, rfl, .inl rfl⟩

theorem witness_halted_left : ∃ (s t : State) (e : Error), s.run = .halted e ∧ step s = .next t ∧ t.Safe :=
  ⟨{ halted State.reset with schedule := [.rst] }, _, _, rfl, rfl, nofun⟩

theorem witness_poll_none : ∃ (s : State) (x : Reg), s.CycleNext ∧ s.run = .awaitingKey x ∧ s.keyEvent = none :=
  ⟨answering [.keyEvent none] ((State.reset).setRun (.awaitingKey 3)), 3, .inl rfl, by decide⟩

theorem witness_poll_key : ∃ (s : State) (x : Reg), s.CycleNext ∧ s.run = .awaitingKey x ∧ s.keyEvent = some 0xF :=
  ⟨answering [.keyEvent (some 0xF)] ((State.reset).setRun (.awaitingKey 0xF)), 0xF, .inl rfl, by decide⟩

theorem reset_inv : State.reset.Inv := ⟨rfl, Nat.zero_le _, nofun, by decide, nofun⟩

theorem witness_invariant : ∃ s t : State, s.Inv ∧ step s = .next t := ⟨State.reset, _, reset_inv, rfl⟩

theorem witness_canonical_memory : ∃ m n : Memory, m.wf = true ∧ n.wf = true ∧ (∀ a, a < 4096 → m.read a = n.read a) :=
  ⟨[(600, 6), (4095, 1)], (Memory.set [] 4095 1).set 600 6, by decide, by decide, fun _ _ => rfl⟩

theorem witness_writer_stack_call : ∃ t, exec (.call 0x400) State.reset = .next t ∧ t.stack ≠ State.reset.stack :=
  ⟨{ State.reset with pc := 0x400, stack := [0x202] }, by
    have h : State.reset.stack.length < stackDepth := Nat.succ_pos _
    show execCall 0x400 State.reset = _
    rw [execCall, State.push, if_pos h]; rfl, by decide⟩

theorem witness_writer_stack_ret : ∃ s t : State, exec .ret s = .next t ∧ t.stack ≠ s.stack :=
  ⟨(State.reset).setStack [0x202], _, rfl, by decide⟩

theorem witness_writer_index : ∃ s t : State, exec (.addIVx 1) s = .next t ∧ t.index ≠ s.index :=
  ⟨start [(1, 1)] 0xFFFF, _, rfl, by decide⟩

theorem witness_writer_dt : ∃ s t : State, exec (.ldDtVx 1) s = .next t ∧ t.dt ≠ s.dt :=
  ⟨start [(1, 255)], _, rfl, by decide⟩

theorem witness_writer_st : ∃ s t : State, exec (.ldStVx 1) s = .next t ∧ t.st ≠ s.st :=
  ⟨start [(1, 255)], _, rfl, by decide⟩

theorem witness_writer_pixels : ∃ s t : State, exec .cls s = .next t ∧ t.fb.pixel 63 31 ≠ s.fb.pixel 63 31 :=
  ⟨(State.reset).setFb ((Framebuffer.clear).toggle 63 31), _, rfl, by decide⟩

theorem witness_writer_memory : ∃ s t : State, exec (.ldMemVx 0) s = .next t ∧ t.byte 0xFFF ≠ s.byte 0xFFF :=
  ⟨start [(0, 1)] 0xFFF, _, rfl, by decide⟩

theorem witness_writer_vf : ∃ s t : State, exec (.addReg 0xF 1) s = .next t ∧ t.reg vf ≠ s.reg vf :=
  ⟨start [(0xF, 0xFF), (1, 1)], _, rfl, by decide⟩

theorem witness_error_wait : ∃ t, exec (.ldVxK 3) State.reset = .next t ∧ t.run ≠ State.reset.run :=
  ⟨_, rfl, by decide⟩

theorem witness_error_raised : ∃ s t : State, exec (.ldBVx 0) s = .next t ∧ t.run ≠ s.run :=
  ⟨start [] 0xFFE, _, rfl, by decide⟩

/-- A sprite whose last byte is the last of memory, with a pixel it falls on set: the draw's clauses for a pixel that is covered,
one that is not, and a collision. -/
theorem witness_drw_collision : ∃ s : State, s.index.toNat + 1 = 4096 ∧
    SpriteCovers (s.reg 0).toNat (s.reg 1).toNat (s.sprite 1) 1 31 ∧ s.fb.pixel 1 31 = true ∧
    ¬SpriteCovers (s.reg 0).toNat (s.reg 1).toNat (s.sprite 1) 1 30 :=
  ⟨(poke (start [(0, 62), (1, 31)] 0xFFF) 0xFFF [0xFF]).setFb ((Framebuffer.clear).toggle 1 31), by decide,
    ⟨0, 3, by decide⟩, by decide, by
      rintro ⟨i, j, hi, -, -, -, hy⟩
      have : i = 0 := by simpa [State.sprite] using hi
      subst this; revert hy; decide⟩

theorem witness_drw_no_collision : ∃ s : State, s.index.toNat + 15 ≤ 4096 ∧
    ∀ c r, SpriteCovers (s.reg 0).toNat (s.reg 1).toNat (s.sprite 15) c r → s.fb.pixel c r = false :=
  ⟨start [] 0xFF1, by decide, fun c r _ => by
    show (Vector.replicate 64 (Vector.replicate 32 false))[c.val][r.val] = false
    rw [Vector.getElem_replicate, Vector.getElem_replicate]⟩

theorem witness_drw_no_rows : ∃ s : State, (0 : BitVec 4).toNat = 0 ∧ s.index.toNat = 4097 :=
  ⟨start [] 0x1001, by decide⟩

theorem witness_drw_past_the_end : ∃ s : State, (2 : BitVec 4).toNat ≠ 0 ∧ s.index.toNat + (2 : BitVec 4).toNat = 4097 :=
  ⟨start [] 0xFFF, by decide⟩

theorem witness_draw_twice : ∃ s t u : State, (0 : Reg) ≠ vf ∧ (1 : Reg) ≠ vf ∧ s.index.toNat + (1 : BitVec 4).toNat ≤ 4096 ∧
    exec (.drw 0 1 1) s = .next t ∧ exec (.drw 0 1 1) t = .next u ∧
    (∃ i, i < (1 : BitVec 4).toNat ∧ s.byte (s.index.toNat + i) ≠ 0) ∧ ∀ c r, s.fb.pixel c r = false :=
  ⟨poke (start [(0, 62), (1, 31)] 0xFFF) 0xFFF [0x81], _, _, by decide, by decide, by decide, rfl, rfl, ⟨0, by decide⟩,
    fun c r => by
      show (Vector.replicate 64 (Vector.replicate 32 false))[c.val][r.val] = false
      rw [Vector.getElem_replicate, Vector.getElem_replicate]⟩

theorem witness_call_last_free_entry : ∃ s : State, s.stack.length < stackDepth ∧ s.stack.length + 1 = stackDepth :=
  ⟨(State.reset).setStack (List.replicate (Config.extraDepth + 15) 0x202), by
    show (List.replicate (Config.extraDepth + 15) _).length < _ ∧ (List.replicate (Config.extraDepth + 15) _).length + 1 = _
    rw [List.length_replicate]; exact ⟨Nat.lt_succ_self _, rfl⟩⟩

theorem witness_call_full : ∃ s : State, s.stack.length = stackDepth :=
  ⟨(State.reset).setStack (List.replicate stackDepth 0x202), List.length_replicate⟩

theorem witness_ret_last : ∃ (s : State) (xs : List Word) (w : Word), s.stack = xs ++ [w] ∧ xs = [] :=
  ⟨(State.reset).setStack [0x202], [], 0x202, rfl, rfl⟩

theorem witness_ret_empty : State.reset.stack = [] := rfl

theorem witness_return_undoes : ∃ s t : State, s.stack.length < stackDepth ∧ exec (.call 0x400) s = .next t :=
  ⟨State.reset, _, Nat.succ_pos _, (witness_writer_stack_call).choose_spec.1⟩

theorem witness_block_alone : ∃ (s s' : State) (e : Event), s.toBlock = s'.toBlock ∧ s.rand8 = s'.rand8 ∧
    (∀ k, s.keyDown k = s'.keyDown k) ∧ (e = .cycle → s.keyEvent = s'.keyEvent) ∧ (e = .rst → s.image = s'.image) ∧
    s.image ≠ s'.image ∧ s.answers ≠ s'.answers ∧ s.schedule ≠ s'.schedule ∧ s.pulses ≠ s'.pulses :=
  ⟨answering [.rand8 1] State.reset, { answering [.rand8 1, .keyDown true] State.reset with
      image := ⟨Config.font, [1]⟩, schedule := [.tick], pulses := [.redraw] }, .cycle,
    rfl, rfl, fun _ => rfl, fun _ => rfl, nofun, by decide⟩

theorem witness_block_alone_rst : ∃ (s s' : State) (e : Event), e = .rst ∧ s.toBlock = s'.toBlock ∧ s.rand8 = s'.rand8 ∧
    (∀ k, s.keyDown k = s'.keyDown k) ∧ s.image = s'.image ∧ s.answers ≠ s'.answers :=
  ⟨answering [.rand8 1] State.reset, answering [.rand8 1, .keyDown true] State.reset, .rst, rfl, rfl, rfl, fun _ => rfl,
    rfl, by decide⟩

theorem witness_skip_equal : ∃ s : State, (s.reg 0xA).toNat = (5 : Byte).toNat := ⟨start [(0xA, 5)], by decide⟩

theorem witness_skip_unequal : ∃ s : State, (s.reg 0xA).toNat ≠ (5 : Byte).toNat := ⟨start [(0xA, 6)], by decide⟩

theorem witness_skip_regs_equal : ∃ s : State, (s.reg 1).toNat = (s.reg 2).toNat := ⟨start [(1, 3), (2, 3)], by decide⟩

theorem witness_skip_regs_unequal : ∃ s : State, (s.reg 1).toNat ≠ (s.reg 2).toNat :=
  ⟨start [(1, 3), (2, 4)], by decide⟩

theorem witness_low_nibble : (1 : BitVec 4) ≠ 0 ∧ (0xF : BitVec 4) ≠ 0 := by decide

/-- The premise `x ≠ vf` of the arithmetic statements; with X = F the flag clause alone speaks. -/
theorem witness_not_vf : (0xE : Reg) ≠ vf := by decide

theorem witness_bcd_fits : ∃ s : State, s.index.toNat = 4093 ∧ s.index.toNat + 2 < 4096 := ⟨start [] 0xFFD, by decide⟩

theorem witness_bcd_past_the_end : ∃ s : State, s.index.toNat = 4094 ∧ 4096 ≤ s.index.toNat + 2 :=
  ⟨start [] 0xFFE, by decide⟩

theorem witness_block_fits : ∃ s : State, s.index.toNat + (0xF : Reg).toNat = 4095 := ⟨start [] 0xFF0, by decide⟩

theorem witness_block_past_the_end : ∃ s : State, s.index.toNat + (0xF : Reg).toNat = 4096 :=
  ⟨start [] 0xFF1, by decide⟩

theorem witness_block_register_kept : (0 : Reg).toNat ≤ (0 : Reg).toNat ∧ (0 : Reg).toNat < (1 : Reg).toNat := by decide

theorem witness_block_round_trip : ∃ s t t' : State, s.index.toNat + (1 : Reg).toNat = 4095 ∧
    exec (.ldMemVx 1) s = .next t ∧ OnlyChanges [.regs] t t' ∧ t'.reg 1 ≠ s.reg 1 :=
  ⟨start [(0, 1), (1, 2)] 0xFFE, _, ((start [(0, 1), (1, 2)] 0xFFE).setMem [(0xFFE, 1), (0xFFF, 2)]).advance.setReg 1 0,
    by decide, rfl, by
      intro p hp
      cases p <;> first | exact absurd (by decide) hp | rfl | exact fun _ => rfl | exact fun _ _ => rfl, by decide⟩

theorem witness_next_fetch : ∃ s t : State, 1 ≤ (1 : Reg).toNat ∧ s.index.toNat = s.pc.toNat + 2 ∧
    s.index.toNat + (1 : Reg).toNat = 4095 ∧ exec (.ldMemVx 1) s = .next t :=
  ⟨(start [(0, 0x12), (1, 0x08)] 0xFFE).setPc 0xFFC, _, by decide, by decide, by decide, rfl⟩


end Sys2Proof.Tests
end

section
/-! SUPPORT and PROOF. The halted state (10_state.md R41, 30_encoding.md R95): a cycle leaves the machine alone, and no
event but `rst` leaves that state. -/

namespace Sys2Proof.Machine

variable {s t : State}

/-! ### The event issued -/

/-- The step handles the event the environment issues, on the state in which it is no longer to come (R13). -/
theorem step_eq_handle (s : State) : step s = handle s.nextInput s.issued := rfl

/-- Issuing an event changes nothing but the list of events to come. -/
theorem onlyChanges_issued (s : State) : OnlyChanges [.schedule] s s.issued := by
  intro p hp
  cases p with
  | schedule => exact absurd (List.mem_singleton_self _) hp
  | regs => exact s.issued_reg
  | mem => exact s.issued_byte
  | fb => exact fun _ _ => rfl
  | index | pc | stack | dt | st | run | image | draws | answers | pulses => rfl

/-- An event other than the default cycle is issued only from the head of the list. -/
theorem schedule_of_nextInput {e : Event} (h : s.nextInput = e) (hc : e ≠ .cycle) :
    ∃ rest, s.schedule = e :: rest := by
  cases hs : s.schedule with
  | nil => exact absurd h.symm (by simpa [State.nextInput, hs] using hc)
  | cons e' rest => exact ⟨rest, by simpa [State.nextInput, hs] using h⟩

/-! ### What an event does to a halted engine -/

theorem not_safe_of_halted {e : Error} (h : s.run = .halted e) : ¬s.Safe := fun hs => hs e h

@[simp] theorem State.tick_run (s : State) : s.tick.run = s.run := rfl

/-- A `load` into a halted engine leaves it halted: with its old error where the program fits, with the load's where it
does not (log 12). -/
theorem loadImage_halted {e : Error} (img : Image) (h : s.run = .halted e) :
    ∃ e', (s.loadImage img).run = .halted e' := by
  by_cases hfit : 512 + img.prog.length ≤ 4096
  · exact ⟨e, by simp [State.loadImage, loadBytes_ok (o := Config.progBase) hfit, h]⟩
  · exact ⟨.romTooLarge img.prog.length,
      by simp [State.loadImage, loadBytes_error (o := Config.progBase) (Nat.lt_of_not_le hfit)]⟩

/-- Every event but `rst` leaves a halted engine halted (R41). -/
theorem handle_halted {e : Error} {ev : Event} (h : s.run = .halted e) (hev : ev ≠ .rst) :
    ∃ t e', handle ev s = .next t ∧ t.run = .halted e' := by
  cases ev with
  | cycle => exact ⟨s, e, cycle_halted s h, h⟩
  | tick => exact ⟨s.tick, e, rfl, by rw [s.tick_run, h]⟩
  | rst => exact absurd rfl hev
  | load img =>
    obtain ⟨e', he'⟩ := loadImage_halted img h
    exact ⟨s.loadImage img, e', rfl, he'⟩

/-! ### The obligation's two clauses -/

/-- A cycle of a halted engine is the issuing of that event and nothing else (R95). -/
theorem step_cycle_halted {e : Error} (h : s.run = .halted e) (hc : s.CycleNext) : step s = .next s.issued := by
  rw [step_cycleNext s hc, cycle_halted s.issued (e := e) h]

/-- A step from a halted state to a safe one handled an `rst` (R41). -/
theorem nextInput_of_halted_of_safe {e : Error} (h : s.run = .halted e) (hstep : step s = .next t) (ht : t.Safe) :
    s.nextInput = .rst := by
  by_contra hev
  obtain ⟨t', e', hnext, hhalted⟩ := handle_halted (s := s.issued) h hev
  have : t = t' := by simpa [step_eq_handle, hnext, eq_comm] using hstep
  exact not_safe_of_halted hhalted (this ▸ ht)

/-- Settles O16: a cycle only issues its event, and every event but `rst` keeps the engine halted. -/
theorem haltedIsLeftOnlyByReset : Obligations.HaltedIsLeftOnlyByReset := by
  intro s e h
  refine ⟨fun hc => ⟨s.issued, step_cycle_halted h hc, onlyChanges_issued s⟩, fun t hstep ht => ?_⟩
  exact schedule_of_nextInput (nextInput_of_halted_of_safe h hstep ht) nofun

end Sys2Proof.Machine
end

section
/-! SUPPORT and PROOF. The fields of a word as numbers (30_encoding.md R71). -/

namespace Sys2Proof

variable (w : Word)

@[simp] theorem fieldG_toNat : (fieldG w).toNat = w.toNat / 4096 := by
  have : w.toNat < 65536 := w.isLt
  simp only [fieldG, BitVec.extractLsb'_toNat, Nat.shiftRight_eq_div_pow]
  omega

@[simp] theorem fieldX_toNat : (fieldX w).toNat = w.toNat / 256 % 16 := by
  simp [fieldX, BitVec.extractLsb'_toNat, Nat.shiftRight_eq_div_pow]

@[simp] theorem fieldY_toNat : (fieldY w).toNat = w.toNat / 16 % 16 := by
  simp [fieldY, BitVec.extractLsb'_toNat, Nat.shiftRight_eq_div_pow]

@[simp] theorem fieldN_toNat : (fieldN w).toNat = w.toNat % 16 := by
  simp [fieldN, BitVec.extractLsb'_toNat]

@[simp] theorem fieldNN_toNat : (fieldNN w).toNat = w.toNat % 256 := by
  simp [fieldNN, BitVec.extractLsb'_toNat]

@[simp] theorem fieldNNN_toNat : (fieldNNN w).toNat = w.toNat % 4096 := by
  simp [fieldNNN, BitVec.extractLsb'_toNat]

/-- Settles O7: an extraction from bit `k` on is the division by `2 ^ k`, modulo the field's size. -/
theorem fieldsOfEveryWord : Obligations.FieldsOfEveryWord := fun w =>
  ⟨fieldG_toNat w, fieldX_toNat w, fieldY_toNat w, fieldN_toNat w, fieldNN_toNat w, fieldNNN_toNat w⟩

end Sys2Proof
end

section
/-! SUPPORT. What the decoder accepts is a row of the opcode table (30_encoding.md R80, R84): a word is its fixed bits with its
operands put into them, so the decoder's answer encodes to the word again. -/

namespace Sys2Proof

/-! ### A word put together from its fields

In each format a word is its fixed bits `base` with its operand fields put into them. -/

/-- The word with group nibble `g` and every other bit 0. -/
def groupWord (g : BitVec 4) : Word := g.setWidth 16 <<< 12

theorem wordA_of_fixed {w base : Word} (h : groupWord (fieldG w) = base) :
    wordA base (fieldNNN w) = w := by
  subst h
  apply BitVec.eq_of_getElem_eq
  intro i hi
  interval_cases i <;> simp [wordA, groupWord, fieldG, fieldNNN]

theorem wordX_of_fixed {w base : Word} (h : groupWord (fieldG w) ||| (fieldNN w).setWidth 16 = base) :
    wordX base (fieldX w) = w := by
  subst h
  apply BitVec.eq_of_getElem_eq
  intro i hi
  interval_cases i <;> simp [wordX, groupWord, fieldG, fieldX, fieldNN]

theorem wordXB_of_fixed {w base : Word} (h : groupWord (fieldG w) = base) :
    wordXB base (fieldX w) (fieldNN w) = w := by
  subst h
  apply BitVec.eq_of_getElem_eq
  intro i hi
  interval_cases i <;> simp [wordXB, groupWord, fieldG, fieldX, fieldNN]

theorem wordXY_of_fixed {w base : Word} (h : groupWord (fieldG w) ||| (fieldN w).setWidth 16 = base) :
    wordXY base (fieldX w) (fieldY w) = w := by
  subst h
  apply BitVec.eq_of_getElem_eq
  intro i hi
  interval_cases i <;> simp [wordXY, groupWord, fieldG, fieldX, fieldY, fieldN]

theorem wordXYN_of_fixed {w base : Word} (h : groupWord (fieldG w) = base) :
    wordXYN base (fieldX w) (fieldY w) (fieldN w) = w := by
  subst h
  apply BitVec.eq_of_getElem_eq
  intro i hi
  interval_cases i <;> simp [wordXYN, groupWord, fieldG, fieldX, fieldY, fieldN]

/-! ### The decoder's answer encodes to the word -/

variable {w : Word} {i : Instr}

theorem encode_of_decodeGroup0 (h : decodeGroup0 w = .ok i) : encode i = w := by
  unfold decodeGroup0 at h
  split at h
  · next hw => cases h; exact hw.symm
  · split at h
    · next hw => cases h; exact hw.symm
    · cases h

theorem encode_of_decodeGroup8 {x y : Reg} {n : BitVec 4} (h : decodeGroup8 x y n = .ok i) :
    encode i = wordXY (groupWord 0x8#4 ||| n.setWidth 16) x y := by
  unfold decodeGroup8 at h
  split at h <;> cases h <;> rfl

theorem encode_of_decodeGroupE {x : Reg} {nn : Byte} (h : decodeGroupE x nn = .ok i) :
    encode i = wordX (groupWord 0xE#4 ||| nn.setWidth 16) x := by
  unfold decodeGroupE at h
  split at h <;> cases h <;> rfl

theorem encode_of_decodeGroupF {x : Reg} {nn : Byte} (h : decodeGroupF x nn = .ok i) :
    encode i = wordX (groupWord 0xF#4 ||| nn.setWidth 16) x := by
  unfold decodeGroupF at h
  split at h <;> cases h <;> rfl

/-- A guarded answer of the decoder is an instruction only where the guard holds. -/
theorem of_ite_ok {c : Prop} [Decidable c] {j : Instr} {r : Reject}
    (h : (if c then .ok j else .error r) = Except.ok i) : c ∧ j = i := by
  split at h
  · next hc => cases h; exact ⟨hc, rfl⟩
  · cases h

/-- The instruction a word decodes to has that word as its encoding. -/
theorem encode_of_decodeWord (h : decodeWord w = .ok i) : encode i = w := by
  unfold decodeWord at h
  split at h
  · exact encode_of_decodeGroup0 h
  · next hG => cases h; exact wordA_of_fixed (by rw [hG]; rfl)
  · next hG => cases h; exact wordA_of_fixed (by rw [hG]; rfl)
  · next hG => cases h; exact wordXB_of_fixed (by rw [hG]; rfl)
  · next hG => cases h; exact wordXB_of_fixed (by rw [hG]; rfl)
  · next hG => obtain ⟨hN, rfl⟩ := of_ite_ok h; exact wordXY_of_fixed (by rw [hG, hN]; rfl)
  · next hG => cases h; exact wordXB_of_fixed (by rw [hG]; rfl)
  · next hG => cases h; exact wordXB_of_fixed (by rw [hG]; rfl)
  · next hG => rw [encode_of_decodeGroup8 h]; exact wordXY_of_fixed (by rw [hG])
  · next hG => obtain ⟨hN, rfl⟩ := of_ite_ok h; exact wordXY_of_fixed (by rw [hG, hN]; rfl)
  · next hG => cases h; exact wordA_of_fixed (by rw [hG]; rfl)
  · next hG => cases h; exact wordA_of_fixed (by rw [hG]; rfl)
  · next hG => cases h; exact wordXB_of_fixed (by rw [hG]; rfl)
  · next hG => cases h; exact wordXYN_of_fixed (by rw [hG]; rfl)
  · next hG => rw [encode_of_decodeGroupE h]; exact wordX_of_fixed (by rw [hG])
  · have hG : fieldG w = 0xF#4 := by
      simp only [imp_false] at *
      bv_omega
    rw [encode_of_decodeGroupF h]; exact wordX_of_fixed (by rw [hG])

/-! ### Encodings are legal -/

/-- Every instruction's encoding fits a row of the opcode table. -/
theorem wordLegal_encode : ∀ i : Instr, wordLegal (encode i) = true
  | .cls => Laws.EncodesLegally.cls
  | .ret => Laws.EncodesLegally.ret
  | .jp nnn => Laws.EncodesLegally.jp nnn
  | .call nnn => Laws.EncodesLegally.call nnn
  | .seImm x nn => Laws.EncodesLegally.seImm x nn
  | .sneImm x nn => Laws.EncodesLegally.sneImm x nn
  | .seReg x y => Laws.EncodesLegally.seReg x y
  | .ldImm x nn => Laws.EncodesLegally.ldImm x nn
  | .addImm x nn => Laws.EncodesLegally.addImm x nn
  | .ldReg x y => Laws.EncodesLegally.ldReg x y
  | .orReg x y => Laws.EncodesLegally.orReg x y
  | .andReg x y => Laws.EncodesLegally.andReg x y
  | .xorReg x y => Laws.EncodesLegally.xorReg x y
  | .addReg x y => Laws.EncodesLegally.addReg x y
  | .sub x y => Laws.EncodesLegally.sub x y
  | .shr x y => Laws.EncodesLegally.shr x y
  | .subn x y => Laws.EncodesLegally.subn x y
  | .shl x y => Laws.EncodesLegally.shl x y
  | .sneReg x y => Laws.EncodesLegally.sneReg x y
  | .ldI nnn => Laws.EncodesLegally.ldI nnn
  | .jpV0 nnn => Laws.EncodesLegally.jpV0 nnn
  | .rnd x nn => Laws.EncodesLegally.rnd x nn
  | .drw x y n => Laws.EncodesLegally.drw x y n
  | .skp x => Laws.EncodesLegally.skp x
  | .sknp x => Laws.EncodesLegally.sknp x
  | .ldVxDt x => Laws.EncodesLegally.ldVxDt x
  | .ldVxK x => Laws.EncodesLegally.ldVxK x
  | .ldDtVx x => Laws.EncodesLegally.ldDtVx x
  | .ldStVx x => Laws.EncodesLegally.ldStVx x
  | .addIVx x => Laws.EncodesLegally.addIVx x
  | .ldFVx x => Laws.EncodesLegally.ldFVx x
  | .ldBVx x => Laws.EncodesLegally.ldBVx x
  | .ldMemVx x => Laws.EncodesLegally.ldMemVx x
  | .ldVxMem x => Laws.EncodesLegally.ldVxMem x

/-- The decoder accepts legal words only. -/
theorem wordLegal_of_decodeWord (h : decodeWord w = .ok i) : wordLegal w = true :=
  encode_of_decodeWord h ▸ wordLegal_encode i

/-- The decoder rejects every illegal word (R84). -/
theorem decodeWord_of_illegal (h : wordLegal w = false) : ∃ r, decodeWord w = .error r := by
  cases hd : decodeWord w with
  | error r => exact ⟨r, rfl⟩
  | ok i => simp [wordLegal_of_decodeWord hd] at h

end Sys2Proof
end

section
/-! PROOF. A cycle at an illegal word (30_encoding.md R92). -/

namespace Sys2Proof.Machine

variable {s : State} {w : Word}

/-- Raising an error in the cycle just issued changes the run state and the events to come, and nothing else (R7). -/
theorem onlyChanges_issued_raise (s : State) (e : Error) : OnlyChanges [.run, .schedule] s (s.issued.raise e) := by
  intro p hp
  cases p with
  | run | schedule => exact absurd (by decide) hp
  | regs => exact s.issued_reg
  | mem => exact s.issued_byte
  | fb => exact fun _ _ => rfl
  | index | pc | stack | dt | st | image | draws | answers | pulses => rfl

/-- An instruction fetched as an illegal word raises InvalidOpcode of that word. -/
theorem runInstruction_illegal (hf : s.fetch = .ok w) (hw : wordLegal w = false) :
    runInstruction s = .next (s.raise (.invalidOpcode w s.pc)) := by
  obtain ⟨r, hr⟩ := decodeWord_of_illegal hw
  simp [runInstruction, hf, hr]

/-- Settles O14: the fetch gives the word, the decoder rejects it, and the error raised is all that changes. -/
theorem illegalWordHalts : Obligations.IllegalWordHalts := by
  intro s w hc hrun hpc hw hill
  have hf : s.issued.fetch = .ok w := hw ▸ s.issued.fetch_ok hpc
  refine ⟨s.issued.raise (.invalidOpcode w s.pc), ?_, rfl, onlyChanges_issued_raise s _⟩
  rw [step_cycleNext s hc, cycle_running s.issued hrun, runInstruction_illegal hf hill, s.issued_pc]

end Sys2Proof.Machine
end

section
/-! PROOF. The clear instruction `00E0` (40_display.md R100). -/

namespace Sys2Proof.Machine

/-- The state after `00E0`: the framebuffer clear, the clear command sent, `PC` advanced. -/
def State.cleared (s : State) : State := ((s.setFb Framebuffer.clear).emit .fbClear).advance

theorem exec_cls (s : State) : exec .cls s = .next s.cleared := rfl

theorem State.cleared_pixel (s : State) (x : Fin 64) (y : Fin 32) : s.cleared.fb.pixel x y = false :=
  Framebuffer.pixel_clear x y

theorem State.cleared_pulses (s : State) : s.cleared.pulses = s.pulses ++ [.fbClear] := by
  simp [State.cleared]

theorem State.cleared_pc (s : State) : s.cleared.pc = s.pc + 2 := by
  simp [State.cleared]

/-- `00E0` changes no register, `VF` included, and no memory: only the pixels, the pulses sent and `PC` (R8). -/
theorem onlyChanges_cleared (s : State) : OnlyChanges [.fb, .pulses, .pc] s s.cleared := by
  intro p hp
  cases p with
  | fb | pulses | pc => exact absurd (by decide) hp
  | regs => exact fun _ => rfl
  | mem => exact fun _ => rfl
  | index | stack | dt | st | run | image | draws | answers | schedule => rfl

/-- Settles O26: the word decodes to CLS, and CLS gives the cleared state from every state. -/
theorem clsClearsEveryPixel : Obligations.ClsClearsEveryPixel :=
  ⟨by decide, fun s => ⟨s.cleared, exec_cls s, s.cleared_pixel, s.cleared_pulses, s.cleared_pc, onlyChanges_cleared s⟩⟩

end Sys2Proof.Machine
end

section
/-! SUPPORT. The decoder on the words of `1NNN`, `3XNN`, `4XNN` and `5XYN` (30_encoding.md R80, R82): the group nibble is the
base word's and picks the arm, and each operand field gives its operand back. -/

namespace Sys2Proof

/-! ### The arm the group nibble picks -/

variable {w : Word}

theorem decodeWord_group1 (h : fieldG w = 0x1#4) : decodeWord w = .ok (.jp (fieldNNN w)) := by
  simp only [decodeWord, h]

theorem decodeWord_group3 (h : fieldG w = 0x3#4) : decodeWord w = .ok (.seImm (fieldX w) (fieldNN w)) := by
  simp only [decodeWord, h]

theorem decodeWord_group4 (h : fieldG w = 0x4#4) : decodeWord w = .ok (.sneImm (fieldX w) (fieldNN w)) := by
  simp only [decodeWord, h]

theorem decodeWord_group5 (h : fieldG w = 0x5#4) :
    decodeWord w = if fieldN w = 0 then .ok (.seReg (fieldX w) (fieldY w)) else .error .group5 := by
  simp only [decodeWord, h]

/-! ### The operands, over a base word whose operand bits are 0 -/

variable {base : Word}

theorem fieldNNN_wordA_operand (h : fieldNNN base = 0#12) (nnn : Addr) : fieldNNN (wordA base nnn) = nnn := by
  rw [fieldNNN_wordA, h, BitVec.zero_or]

theorem fieldX_wordXB_operand (h : fieldX base = 0#4) (x : Reg) (nn : Byte) : fieldX (wordXB base x nn) = x := by
  rw [fieldX_wordXB, h, BitVec.zero_or]

theorem fieldNN_wordXB_operand (h : fieldNN base = 0#8) (x : Reg) (nn : Byte) : fieldNN (wordXB base x nn) = nn := by
  rw [fieldNN_wordXB, h, BitVec.zero_or]

theorem fieldX_wordXY_operand (h : fieldX base = 0#4) (x y : Reg) : fieldX (wordXY base x y) = x := by
  rw [fieldX_wordXY, h, BitVec.zero_or]

theorem fieldY_wordXY_operand (h : fieldY base = 0#4) (x y : Reg) : fieldY (wordXY base x y) = y := by
  rw [fieldY_wordXY, h, BitVec.zero_or]

theorem fieldN_wordXYN_operand (h : fieldN base = 0#4) (x y : Reg) (n : BitVec 4) : fieldN (wordXYN base x y n) = n := by
  rw [fieldN_wordXYN, h, BitVec.zero_or]

/-! ### The words -/

theorem decodeWord_jp (nnn : Addr) : decodeWord (wordA 0x1000 nnn) = .ok (.jp nnn) := by
  have hG : fieldG (wordA 0x1000 nnn) = 0x1#4 := fieldG_wordA _ _
  rw [decodeWord_group1 hG, fieldNNN_wordA_operand rfl]

theorem decodeWord_seImm (x : Reg) (nn : Byte) : decodeWord (wordXB 0x3000 x nn) = .ok (.seImm x nn) := by
  have hG : fieldG (wordXB 0x3000 x nn) = 0x3#4 := fieldG_wordXB _ _ _
  rw [decodeWord_group3 hG, fieldX_wordXB_operand rfl, fieldNN_wordXB_operand rfl]

theorem decodeWord_sneImm (x : Reg) (nn : Byte) : decodeWord (wordXB 0x4000 x nn) = .ok (.sneImm x nn) := by
  have hG : fieldG (wordXB 0x4000 x nn) = 0x4#4 := fieldG_wordXB _ _ _
  rw [decodeWord_group4 hG, fieldX_wordXB_operand rfl, fieldNN_wordXB_operand rfl]

theorem decodeWord_seReg (x y : Reg) : decodeWord (wordXY 0x5000 x y) = .ok (.seReg x y) := by
  have hG : fieldG (wordXY 0x5000 x y) = 0x5#4 := fieldG_wordXY _ _ _
  have hN : fieldN (wordXY 0x5000 x y) = 0 := fieldN_wordXY _ _ _
  rw [decodeWord_group5 hG, if_pos hN, fieldX_wordXY_operand rfl, fieldY_wordXY_operand rfl]

/-- A low nibble other than 0 is no instruction of group 5 (R82). -/
theorem decodeWord_group5_lowNibble (x y : Reg) {n : BitVec 4} (hn : n ≠ 0) :
    decodeWord (wordXYN 0x5000 x y n) = .error .group5 := by
  have hG : fieldG (wordXYN 0x5000 x y n) = 0x5#4 := fieldG_wordXYN _ _ _ _
  have hN : fieldN (wordXYN 0x5000 x y n) = n := fieldN_wordXYN_operand rfl x y n
  rw [decodeWord_group5 hG, hN, if_neg hn]

end Sys2Proof
end

section
/-! PROOF. The jump `1NNN` and the skips `3XNN`, `4XNN` and `5XY0` (41_control.md R120, R121, R124 to R126): each of them
writes `PC` and nothing else. -/

namespace Sys2Proof.Machine

/-! ### What writing `PC` leaves unchanged -/

theorem onlyChanges_setPc (s : State) (w : Word) : OnlyChanges [.pc] s (s.setPc w) := by
  intro p hp
  cases p with
  | pc => exact absurd (List.mem_singleton_self _) hp
  | regs => exact s.setPc_reg w
  | mem => exact s.setPc_byte w
  | fb => exact fun _ _ => rfl
  | index | stack | dt | st | run | image | draws | answers | schedule | pulses => rfl

/-! ### What each instruction executes as -/

theorem exec_jp (nnn : Addr) (s : State) : exec (.jp nnn) s = .next (s.setPc (addrWord nnn)) := rfl

theorem exec_seImm (x : Reg) (nn : Byte) (s : State) :
    exec (.seImm x nn) s = .next (s.skipIf (s.reg x == nn)) := rfl

theorem exec_sneImm (x : Reg) (nn : Byte) (s : State) :
    exec (.sneImm x nn) s = .next (s.skipIf (s.reg x != nn)) := rfl

theorem exec_seReg (x y : Reg) (s : State) : exec (.seReg x y) s = .next (s.skipIf (s.reg x == s.reg y)) := rfl

/-- A 12-bit address is the same number as a 16-bit word (R73). -/
theorem addrWord_toNat (nnn : Addr) : (addrWord nnn).toNat = nnn.toNat :=
  BitVec.toNat_setWidth_of_le (by decide)

/-! ### Skipping on a condition -/

/-- An instruction that ends in `skip_if(c)` goes to `PC + 4` where `c` holds and to `PC + 2` where it does not, and changes
nothing else (R120). -/
theorem exec_of_skipIf {i : Instr} {s : State} {c : Bool} {skips stays : Prop}
    (hexec : exec i s = .next (s.skipIf c)) (hskips : skips → c = true) (hstays : stays → c = false) :
    ∃ t, exec i s = .next t ∧ (skips → t.pc = s.pc + 4) ∧ (stays → t.pc = s.pc + 2) ∧ OnlyChanges [.pc] s t := by
  refine ⟨s.skipIf c, hexec, fun h => ?_, fun h => ?_, onlyChanges_setPc s _⟩
  · rw [s.skipIf_pc, if_pos (hskips h)]
  · rw [s.skipIf_pc, hstays h, if_neg Bool.false_ne_true]

/-- Bytes compare equal exactly where they are equal as numbers. -/
theorem beq_of_toNat_eq {a b : Byte} (h : a.toNat = b.toNat) : (a == b) = true :=
  beq_iff_eq.mpr (BitVec.eq_of_toNat_eq h)

theorem beq_of_toNat_ne {a b : Byte} (h : a.toNat ≠ b.toNat) : (a == b) = false :=
  beq_eq_false_iff_ne.mpr (BitVec.toNat_ne_iff_ne.mp h)

/-! ### The obligations -/

/-- Settles O29: the word is group 1 with NNN as its address field, and the jump is one write of `PC`. -/
theorem jpSetsThePc : Obligations.JpSetsThePc := fun nnn =>
  ⟨decodeWord_jp nnn, fun s => ⟨_, exec_jp nnn s, addrWord_toNat nnn, onlyChanges_setPc s _⟩⟩

/-- Settles O34: both are `skip_if`, on equality with the byte and on its negation. -/
theorem skipsOnAByte : Obligations.SkipsOnAByte := by
  intro x nn
  refine ⟨decodeWord_seImm x nn, decodeWord_sneImm x nn, fun s => ⟨?_, ?_⟩⟩
  · exact exec_of_skipIf (exec_seImm x nn s) beq_of_toNat_eq beq_of_toNat_ne
  · refine exec_of_skipIf (exec_sneImm x nn s) (fun hne => ?_) (fun heq => ?_)
    · rw [bne, beq_of_toNat_ne hne, Bool.not_false]
    · rw [bne, beq_of_toNat_eq heq, Bool.not_true]

/-- Settles O35: `skip_if` on equality of the registers; in group 5 the decoder asks for a low nibble of 0. -/
theorem seRegSkipsOnEqualRegisters : Obligations.SeRegSkipsOnEqualRegisters := fun x y =>
  ⟨decodeWord_seReg x y, fun _ hn => decodeWord_group5_lowNibble x y hn,
    fun s => exec_of_skipIf (exec_seReg x y s) beq_of_toNat_eq beq_of_toNat_ne⟩

end Sys2Proof.Machine
end

section
/-! SUPPORT. The decoder on the words of `6XNN`, `7XNN` and group 8 (30_encoding.md R80, R83): in group 8 the base word's low
nibble picks the instruction. -/

namespace Sys2Proof

/-! ### The arm the group nibble picks -/

variable {w : Word}

theorem decodeWord_group6 (h : fieldG w = 0x6#4) : decodeWord w = .ok (.ldImm (fieldX w) (fieldNN w)) := by
  simp only [decodeWord, h]

theorem decodeWord_group7 (h : fieldG w = 0x7#4) : decodeWord w = .ok (.addImm (fieldX w) (fieldNN w)) := by
  simp only [decodeWord, h]

theorem decodeWord_group8 (h : fieldG w = 0x8#4) :
    decodeWord w = decodeGroup8 (fieldX w) (fieldY w) (fieldN w) := by
  simp only [decodeWord, h]

/-! ### The words -/

theorem decodeWord_ldImm (x : Reg) (nn : Byte) : decodeWord (wordXB 0x6000 x nn) = .ok (.ldImm x nn) := by
  have hG : fieldG (wordXB 0x6000 x nn) = 0x6#4 := fieldG_wordXB _ _ _
  rw [decodeWord_group6 hG, fieldX_wordXB_operand rfl, fieldNN_wordXB_operand rfl]

theorem decodeWord_addImm (x : Reg) (nn : Byte) : decodeWord (wordXB 0x7000 x nn) = .ok (.addImm x nn) := by
  have hG : fieldG (wordXB 0x7000 x nn) = 0x7#4 := fieldG_wordXB _ _ _
  rw [decodeWord_group7 hG, fieldX_wordXB_operand rfl, fieldNN_wordXB_operand rfl]

/-- A word of group 8 over a base word whose operand bits are 0 is the sub-opcode the base word's low nibble names. -/
theorem decodeWord_wordXY_group8 {base : Word} (hG : fieldG base = 0x8#4) (hX : fieldX base = 0#4)
    (hY : fieldY base = 0#4) (x y : Reg) : decodeWord (wordXY base x y) = decodeGroup8 x y (fieldN base) := by
  rw [decodeWord_group8 ((fieldG_wordXY base x y).trans hG), fieldX_wordXY_operand hX, fieldY_wordXY_operand hY,
    fieldN_wordXY]

theorem decodeWord_ldReg (x y : Reg) : decodeWord (wordXY 0x8000 x y) = .ok (.ldReg x y) :=
  decodeWord_wordXY_group8 rfl rfl rfl x y

theorem decodeWord_addReg (x y : Reg) : decodeWord (wordXY 0x8004 x y) = .ok (.addReg x y) :=
  decodeWord_wordXY_group8 rfl rfl rfl x y

theorem decodeWord_sub (x y : Reg) : decodeWord (wordXY 0x8005 x y) = .ok (.sub x y) :=
  decodeWord_wordXY_group8 rfl rfl rfl x y

theorem decodeWord_subn (x y : Reg) : decodeWord (wordXY 0x8007 x y) = .ok (.subn x y) :=
  decodeWord_wordXY_group8 rfl rfl rfl x y

end Sys2Proof
end

section
/-! PROOF. Loads, additions and subtractions of registers (42_alu.md R150 to R154, R158, R159, R161): each of them writes its
destination, with or without the flag after it, and advances `PC`. -/

namespace Sys2Proof.Machine

/-! ### Frames of the register writes and the advance -/

section
variable {parts : List Part} {s t : State}

theorem OnlyChanges.refl (parts : List Part) (s : State) : OnlyChanges parts s s := by
  intro p _
  cases p with
  | regs | mem => exact fun _ => rfl
  | fb => exact fun _ _ => rfl
  | index | pc | stack | dt | st | run | image | draws | answers | schedule | pulses => rfl

/-- A register write stays within a frame that lists the registers. -/
theorem OnlyChanges.setReg (h : OnlyChanges parts s t) (hregs : .regs ∈ parts) (r : Reg) (b : Byte) :
    OnlyChanges parts s (t.setReg r b) := by
  intro p hp
  cases p with
  | regs => exact absurd hregs hp
  | mem | fb | index | pc | stack | dt | st | run | image | draws | answers | schedule | pulses => exact h _ hp

theorem OnlyChanges.setRegFlag (h : OnlyChanges parts s t) (hregs : .regs ∈ parts) (r : Reg) (b : Byte) (c : Bool) :
    OnlyChanges parts s (t.setRegFlag r b c) :=
  (h.setReg hregs r b).setReg hregs vf (flagByte c)

/-- The advance stays within a frame that lists `PC`. -/
theorem OnlyChanges.advance (h : OnlyChanges parts s t) (hpc : .pc ∈ parts) : OnlyChanges parts s t.advance := by
  intro p hp
  cases p with
  | pc => exact absurd hpc hp
  | regs | mem | fb | index | stack | dt | st | run | image | draws | answers | schedule | pulses => exact h _ hp

end

/-! ### What each instruction executes as -/

theorem exec_ldImm (x : Reg) (nn : Byte) (s : State) : exec (.ldImm x nn) s = .next (s.setReg x nn).advance := rfl

theorem exec_addImm (x : Reg) (nn : Byte) (s : State) :
    exec (.addImm x nn) s = .next (s.setReg x (s.reg x + nn)).advance := rfl

theorem exec_ldReg (x y : Reg) (s : State) : exec (.ldReg x y) s = .next (s.setReg x (s.reg y)).advance := rfl

theorem exec_addReg (x y : Reg) (s : State) :
    exec (.addReg x y) s = .next (s.setRegFlag x (s.reg x + s.reg y) (carryOut (s.reg x) (s.reg y))).advance := rfl

theorem exec_sub (x y : Reg) (s : State) :
    exec (.sub x y) s = .next (s.setRegFlag x (s.reg x - s.reg y) (noBorrow (s.reg x) (s.reg y))).advance := rfl

theorem exec_subn (x y : Reg) (s : State) :
    exec (.subn x y) s = .next (s.setRegFlag x (s.reg y - s.reg x) (noBorrow (s.reg y) (s.reg x))).advance := rfl

/-! ### Writing a register, without and with the flag -/

section
variable {i : Instr} {s : State} {x : Reg} {b : Byte} {c : Bool}

/-- An instruction that writes `V[x]` and advances changes that register and `PC` alone (R8). -/
theorem exec_of_setReg (hexec : exec i s = .next (s.setReg x b).advance) :
    ∃ t, exec i s = .next t ∧ t.reg x = b ∧ t.pc = s.pc + 2 ∧ RegsKeptBut [x] s t ∧ OnlyChanges [.regs, .pc] s t := by
  refine ⟨_, hexec, s.setReg_reg_same x b, rfl, fun r hr => ?_, ?_⟩
  · exact s.setReg_reg_other b (List.ne_of_not_mem_cons hr)
  · exact ((OnlyChanges.refl _ s).setReg (by decide) x b).advance (by decide)

/-- An instruction that writes `V[x]`, then the flag, and advances changes `V[x]`, `VF` and `PC` alone; with `x = F` the flag
is what is left (R23, R151). -/
theorem exec_of_setRegFlag (hexec : exec i s = .next (s.setRegFlag x b c).advance) :
    ∃ t, exec i s = .next t ∧ (x ≠ vf → t.reg x = b) ∧ t.reg vf = flagByte c ∧
      t.pc = s.pc + 2 ∧ RegsKeptBut [x, vf] s t ∧ OnlyChanges [.regs, .pc] s t := by
  refine ⟨_, hexec, s.setRegFlag_reg_result b c, s.setRegFlag_vf x b c, rfl, fun r hr => ?_, ?_⟩
  · obtain ⟨hx, hf⟩ : r ≠ x ∧ r ≠ vf := by simpa using hr
    exact s.setRegFlag_reg_other b c hx hf
  · exact ((OnlyChanges.refl _ s).setRegFlag (by decide) x b c).advance (by decide)

end

/-! ### Results and flags as numbers -/

theorem flagByte_decide_toNat (p : Prop) [Decidable p] : (flagByte (decide p)).toNat = if p then 1 else 0 := by
  by_cases hp : p <;> simp [flagByte, hp]

theorem carryOut_flag_toNat (a b : Byte) :
    (flagByte (carryOut a b)).toNat = if a.toNat + b.toNat > 255 then 1 else 0 :=
  flagByte_decide_toNat _

theorem noBorrow_flag_toNat (a b : Byte) : (flagByte (noBorrow a b)).toNat = if a.toNat ≥ b.toNat then 1 else 0 :=
  flagByte_decide_toNat _

/-- The difference of two bytes is their integer difference modulo 256. -/
theorem toNat_sub_emod (a b : Byte) : ((a - b).toNat : Int) = ((a.toNat : Int) - b.toNat) % 256 := by
  rw [BitVec.toNat_sub]
  omega

/-- An instruction that writes `a - b` with its no-borrow flag, whichever registers `a` and `b` were read from. -/
theorem exec_of_difference {i : Instr} {s : State} {x : Reg} {a b : Byte}
    (hexec : exec i s = .next (s.setRegFlag x (a - b) (noBorrow a b)).advance) :
    ∃ t, exec i s = .next t ∧ (x ≠ vf → ((t.reg x).toNat : Int) = ((a.toNat : Int) - b.toNat) % 256) ∧
      (t.reg vf).toNat = (if a.toNat ≥ b.toNat then 1 else 0) ∧
      t.pc = s.pc + 2 ∧ RegsKeptBut [x, vf] s t ∧ OnlyChanges [.regs, .pc] s t := by
  obtain ⟨t, ht, hresult, hflag, hframe⟩ := exec_of_setRegFlag hexec
  refine ⟨t, ht, fun hx => ?_, ?_, hframe⟩
  · rw [hresult hx, toNat_sub_emod]
  · rw [hflag, noBorrow_flag_toNat]

/-! ### The obligations -/

/-- Settles O37: both are one write of `V[X]`, of the byte and of the sum modulo 256. -/
theorem immediateLoadAndAdd : Obligations.ImmediateLoadAndAdd := by
  intro x nn
  refine ⟨decodeWord_ldImm x nn, decodeWord_addImm x nn, fun s => ⟨exec_of_setReg (exec_ldImm x nn s), ?_⟩⟩
  obtain ⟨t, ht, hresult, hframe⟩ := exec_of_setReg (exec_addImm x nn s)
  exact ⟨t, ht, hresult ▸ BitVec.toNat_add _ _, hframe⟩

/-- Settles O38: sub-opcode 0 of group 8 is one write of `V[X]`. -/
theorem ldRegCopiesARegister : Obligations.LdRegCopiesARegister := fun x y =>
  ⟨decodeWord_ldReg x y, fun s => exec_of_setReg (exec_ldReg x y s)⟩

/-- Settles O40: the sum modulo 256 is written first, then the carry of the exact sum. -/
theorem addRegSetsTheCarry : Obligations.AddRegSetsTheCarry := by
  intro x y
  refine ⟨decodeWord_addReg x y, fun s => ?_⟩
  obtain ⟨t, ht, hresult, hflag, hframe⟩ := exec_of_setRegFlag (exec_addReg x y s)
  refine ⟨t, ht, fun hx => ?_, ?_, hframe⟩
  · exact hresult hx ▸ BitVec.toNat_add _ _
  · rw [hflag, carryOut_flag_toNat]

/-- Settles O41: the two orders are one instruction shape, with the minuend and the subtrahend exchanged. -/
theorem subtractionsSetNotBorrow : Obligations.SubtractionsSetNotBorrow := fun x y =>
  ⟨decodeWord_sub x y, decodeWord_subn x y,
    fun s => ⟨exec_of_difference (exec_sub x y s), exec_of_difference (exec_subn x y s)⟩⟩

end Sys2Proof.Machine
end

section
/-! SUPPORT. The decoder on the words of `ANNN` and group F (30_encoding.md R80, R83): in group F the base word's low byte
picks the instruction. -/

namespace Sys2Proof

/-! ### The arm the group nibble picks -/

variable {w : Word}

theorem decodeWord_groupA (h : fieldG w = 0xA#4) : decodeWord w = .ok (.ldI (fieldNNN w)) := by
  simp only [decodeWord, h]

theorem decodeWord_groupF (h : fieldG w = 0xF#4) : decodeWord w = decodeGroupF (fieldX w) (fieldNN w) := by
  rw [decodeWord, h]
  rfl

/-! ### The words -/

theorem decodeWord_ldI (nnn : Addr) : decodeWord (wordA 0xA000 nnn) = .ok (.ldI nnn) := by
  have hG : fieldG (wordA 0xA000 nnn) = 0xA#4 := fieldG_wordA _ _
  rw [decodeWord_groupA hG, fieldNNN_wordA_operand rfl]

/-- A word of group F over a base word whose operand bits are 0 is the sub-opcode the base word's low byte names. -/
theorem decodeWord_wordX_groupF {base : Word} (hG : fieldG base = 0xF#4) (hX : fieldX base = 0#4) (x : Reg) :
    decodeWord (wordX base x) = decodeGroupF x (fieldNN base) := by
  rw [decodeWord_groupF ((fieldG_wordX base x).trans hG), fieldX_wordX, hX, BitVec.zero_or, fieldNN_wordX]

theorem decodeWord_ldFVx (x : Reg) : decodeWord (wordX 0xF029 x) = .ok (.ldFVx x) :=
  decodeWord_wordX_groupF rfl rfl x

end Sys2Proof
end

section
/-! PROOF. The loads of the index register `ANNN` and `FX29` (43_index_memory.md R180, R183): each of them writes `I` and
advances `PC`. -/

namespace Sys2Proof.Machine

/-! ### The frame of the index write -/

/-- An index write stays within a frame that lists the index. -/
theorem OnlyChanges.setIndex {parts : List Part} {s t : State} (h : OnlyChanges parts s t) (hindex : .index ∈ parts)
    (w : Word) : OnlyChanges parts s (t.setIndex w) := by
  intro p hp
  cases p with
  | index => exact absurd hindex hp
  | regs | mem | fb | pc | stack | dt | st | run | image | draws | answers | schedule | pulses => exact h _ hp

/-! ### What each instruction executes as -/

theorem exec_ldI (nnn : Addr) (s : State) : exec (.ldI nnn) s = .next (s.setIndex (addrWord nnn)).advance := rfl

theorem exec_ldFVx (x : Reg) (s : State) : exec (.ldFVx x) s = .next (s.setIndex (glyphAddr (s.reg x))).advance := rfl

/-- The glyph address is five times the whole byte: the product is at most 1275, so no bit of it is lost (R183). -/
theorem glyphAddr_toNat (b : Byte) : (glyphAddr b).toNat = b.toNat * 5 := by
  have hfits : b.toNat * 5 < 65536 := by omega
  exact (BitVec.toNat_ofNat _ 16).trans (Nat.mod_eq_of_lt hfits)

/-! ### Writing the index -/

/-- An instruction that writes `I` and advances changes `I` and `PC` alone. -/
theorem exec_of_setIndex {i : Instr} {s : State} {w : Word} (hexec : exec i s = .next (s.setIndex w).advance) :
    ∃ t, exec i s = .next t ∧ t.index.toNat = w.toNat ∧ t.pc = s.pc + 2 ∧ OnlyChanges [.index, .pc] s t :=
  ⟨_, hexec, rfl, rfl, ((OnlyChanges.refl _ s).setIndex (by decide) w).advance (by decide)⟩

/-! ### The obligation -/

/-- Settles O44: both are one write of `I`, of the address and of the unmasked product. -/
theorem indexLoads : Obligations.IndexLoads := by
  refine ⟨fun nnn => ⟨decodeWord_ldI nnn, fun s => ?_⟩, fun x => ⟨decodeWord_ldFVx x, fun s => ?_⟩⟩
  · rw [← addrWord_toNat nnn]
    exact exec_of_setIndex (exec_ldI nnn s)
  · rw [← glyphAddr_toNat (s.reg x)]
    exact exec_of_setIndex (exec_ldFVx x s)

end Sys2Proof.Machine
end

section
/-! SUPPORT. The decoder on the words `FX07`, `FX15` and `FX18` of group F (30_encoding.md R80, R83). -/

namespace Sys2Proof

theorem decodeWord_ldVxDt (x : Reg) : decodeWord (wordX 0xF007 x) = .ok (.ldVxDt x) :=
  decodeWord_wordX_groupF rfl rfl x

theorem decodeWord_ldDtVx (x : Reg) : decodeWord (wordX 0xF015 x) = .ok (.ldDtVx x) :=
  decodeWord_wordX_groupF rfl rfl x

theorem decodeWord_ldStVx (x : Reg) : decodeWord (wordX 0xF018 x) = .ok (.ldStVx x) :=
  decodeWord_wordX_groupF rfl rfl x

end Sys2Proof
end

section
/-! PROOF. The moves between a register and the timers `FX07`, `FX15` and `FX18` (44_keys_timers.md R202, R206, R207): each
of them is one write, of a register or of a timer, and the advance. -/

namespace Sys2Proof.Machine

/-! ### Frames of the timer writes -/

section
variable {parts : List Part} {s t : State}

/-- A write of the delay timer stays within a frame that lists it. -/
theorem OnlyChanges.setDt (h : OnlyChanges parts s t) (hdt : .dt ∈ parts) (b : Byte) :
    OnlyChanges parts s (t.setDt b) := by
  intro p hp
  cases p with
  | dt => exact absurd hdt hp
  | regs | mem | fb | index | pc | stack | st | run | image | draws | answers | schedule | pulses => exact h _ hp

/-- A write of the sound timer stays within a frame that lists it: the tone is no part of its own. -/
theorem OnlyChanges.setSt (h : OnlyChanges parts s t) (hst : .st ∈ parts) (b : Byte) :
    OnlyChanges parts s (t.setSt b) := by
  intro p hp
  cases p with
  | st => exact absurd hst hp
  | regs | mem | fb | index | pc | stack | dt | run | image | draws | answers | schedule | pulses => exact h _ hp

end

/-- The tone sounds exactly while the sound timer is above 0 (R207). -/
theorem State.tone_iff (s : State) : s.tone = true ↔ 0 < s.st.toNat := decide_eq_true_iff

/-! ### What each instruction executes as -/

theorem exec_ldVxDt (x : Reg) (s : State) : exec (.ldVxDt x) s = .next (s.setReg x s.dt).advance := rfl

theorem exec_ldDtVx (x : Reg) (s : State) : exec (.ldDtVx x) s = .next (s.setDt (s.reg x)).advance := rfl

theorem exec_ldStVx (x : Reg) (s : State) : exec (.ldStVx x) s = .next (s.setSt (s.reg x)).advance := rfl

/-! ### The obligation -/

/-- Settles O53: `FX07` is one write of `V[X]`, `FX15` and `FX18` are one write of a timer, and the tone is a function of
`ST` alone. -/
theorem timerMoves : Obligations.TimerMoves := by
  refine fun x => ⟨decodeWord_ldVxDt x, decodeWord_ldDtVx x, decodeWord_ldStVx x, fun s => ⟨?_, ?_, ?_⟩⟩
  · exact exec_of_setReg (exec_ldVxDt x s)
  · have hframe : OnlyChanges [.dt, .pc] s (s.setDt (s.reg x)).advance :=
      ((OnlyChanges.refl _ s).setDt (by decide) (s.reg x)).advance (by decide)
    exact ⟨_, exec_ldDtVx x s, rfl, rfl, hframe⟩
  · have hframe : OnlyChanges [.st, .pc] s (s.setSt (s.reg x)).advance :=
      ((OnlyChanges.refl _ s).setSt (by decide) (s.reg x)).advance (by decide)
    exact ⟨_, exec_ldStVx x s, rfl, (s.setSt (s.reg x)).advance.tone_iff, rfl, hframe⟩

end Sys2Proof.Machine
end

section
/-! SUPPORT. The decoder on the words of the instructions left (30_encoding.md R80): `2NNN`, the logic and shift words of group
8, group 9, `BNNN`, `CXNN`, `DXYN`, group E and the rest of group F. -/

namespace Sys2Proof

/-! ### The arm the group nibble picks -/

variable {w : Word}

theorem decodeWord_group2 (h : fieldG w = 0x2#4) : decodeWord w = .ok (.call (fieldNNN w)) := by
  simp only [decodeWord, h]

theorem decodeWord_group9 (h : fieldG w = 0x9#4) :
    decodeWord w = if fieldN w = 0 then .ok (.sneReg (fieldX w) (fieldY w)) else .error .group9 := by
  simp only [decodeWord, h]

theorem decodeWord_groupB (h : fieldG w = 0xB#4) : decodeWord w = .ok (.jpV0 (fieldNNN w)) := by
  simp only [decodeWord, h]

theorem decodeWord_groupC (h : fieldG w = 0xC#4) : decodeWord w = .ok (.rnd (fieldX w) (fieldNN w)) := by
  simp only [decodeWord, h]

theorem decodeWord_groupD (h : fieldG w = 0xD#4) :
    decodeWord w = .ok (.drw (fieldX w) (fieldY w) (fieldN w)) := by
  simp only [decodeWord, h]

theorem decodeWord_groupE (h : fieldG w = 0xE#4) : decodeWord w = decodeGroupE (fieldX w) (fieldNN w) := by
  simp only [decodeWord, h]

/-! ### The words -/

theorem decodeWord_call (nnn : Addr) : decodeWord (wordA 0x2000 nnn) = .ok (.call nnn) := by
  have hG : fieldG (wordA 0x2000 nnn) = 0x2#4 := fieldG_wordA _ _
  rw [decodeWord_group2 hG, fieldNNN_wordA_operand rfl]

theorem decodeWord_orReg (x y : Reg) : decodeWord (wordXY 0x8001 x y) = .ok (.orReg x y) :=
  decodeWord_wordXY_group8 rfl rfl rfl x y

theorem decodeWord_andReg (x y : Reg) : decodeWord (wordXY 0x8002 x y) = .ok (.andReg x y) :=
  decodeWord_wordXY_group8 rfl rfl rfl x y

theorem decodeWord_xorReg (x y : Reg) : decodeWord (wordXY 0x8003 x y) = .ok (.xorReg x y) :=
  decodeWord_wordXY_group8 rfl rfl rfl x y

theorem decodeWord_shr (x y : Reg) : decodeWord (wordXY 0x8006 x y) = .ok (.shr x y) :=
  decodeWord_wordXY_group8 rfl rfl rfl x y

theorem decodeWord_shl (x y : Reg) : decodeWord (wordXY 0x800E x y) = .ok (.shl x y) :=
  decodeWord_wordXY_group8 rfl rfl rfl x y

theorem decodeWord_sneReg (x y : Reg) : decodeWord (wordXY 0x9000 x y) = .ok (.sneReg x y) := by
  have hG : fieldG (wordXY 0x9000 x y) = 0x9#4 := fieldG_wordXY _ _ _
  have hN : fieldN (wordXY 0x9000 x y) = 0 := fieldN_wordXY _ _ _
  rw [decodeWord_group9 hG, if_pos hN, fieldX_wordXY_operand rfl, fieldY_wordXY_operand rfl]

/-- A low nibble other than 0 is no instruction of group 9 (R82, D11). -/
theorem decodeWord_group9_lowNibble (x y : Reg) {n : BitVec 4} (hn : n ≠ 0) :
    decodeWord (wordXYN 0x9000 x y n) = .error .group9 := by
  have hG : fieldG (wordXYN 0x9000 x y n) = 0x9#4 := fieldG_wordXYN _ _ _ _
  have hN : fieldN (wordXYN 0x9000 x y n) = n := fieldN_wordXYN_operand rfl x y n
  rw [decodeWord_group9 hG, hN, if_neg hn]

theorem decodeWord_jpV0 (nnn : Addr) : decodeWord (wordA 0xB000 nnn) = .ok (.jpV0 nnn) := by
  have hG : fieldG (wordA 0xB000 nnn) = 0xB#4 := fieldG_wordA _ _
  rw [decodeWord_groupB hG, fieldNNN_wordA_operand rfl]

theorem decodeWord_rnd (x : Reg) (nn : Byte) : decodeWord (wordXB 0xC000 x nn) = .ok (.rnd x nn) := by
  have hG : fieldG (wordXB 0xC000 x nn) = 0xC#4 := fieldG_wordXB _ _ _
  rw [decodeWord_groupC hG, fieldX_wordXB_operand rfl, fieldNN_wordXB_operand rfl]

theorem decodeWord_drw (x y : Reg) (n : BitVec 4) : decodeWord (wordXYN 0xD000 x y n) = .ok (.drw x y n) := by
  have hG : fieldG (wordXYN 0xD000 x y n) = 0xD#4 := fieldG_wordXYN _ _ _ _
  have hX : fieldX (wordXYN 0xD000 x y n) = x := (fieldX_wordXYN _ _ _ _).trans BitVec.zero_or
  have hY : fieldY (wordXYN 0xD000 x y n) = y := (fieldY_wordXYN _ _ _ _).trans BitVec.zero_or
  rw [decodeWord_groupD hG, hX, hY, fieldN_wordXYN_operand rfl]

/-- A word of group E over a base word whose operand bits are 0 is the sub-opcode the base word's low byte names. -/
theorem decodeWord_wordX_groupE {base : Word} (hG : fieldG base = 0xE#4) (hX : fieldX base = 0#4) (x : Reg) :
    decodeWord (wordX base x) = decodeGroupE x (fieldNN base) := by
  rw [decodeWord_groupE ((fieldG_wordX base x).trans hG), fieldX_wordX, hX, BitVec.zero_or, fieldNN_wordX]

theorem decodeWord_skp (x : Reg) : decodeWord (wordX 0xE09E x) = .ok (.skp x) :=
  decodeWord_wordX_groupE rfl rfl x

theorem decodeWord_sknp (x : Reg) : decodeWord (wordX 0xE0A1 x) = .ok (.sknp x) :=
  decodeWord_wordX_groupE rfl rfl x

theorem decodeWord_ldVxK (x : Reg) : decodeWord (wordX 0xF00A x) = .ok (.ldVxK x) :=
  decodeWord_wordX_groupF rfl rfl x

theorem decodeWord_addIVx (x : Reg) : decodeWord (wordX 0xF01E x) = .ok (.addIVx x) :=
  decodeWord_wordX_groupF rfl rfl x

theorem decodeWord_ldBVx (x : Reg) : decodeWord (wordX 0xF033 x) = .ok (.ldBVx x) :=
  decodeWord_wordX_groupF rfl rfl x

theorem decodeWord_ldMemVx (x : Reg) : decodeWord (wordX 0xF055 x) = .ok (.ldMemVx x) :=
  decodeWord_wordX_groupF rfl rfl x

theorem decodeWord_ldVxMem (x : Reg) : decodeWord (wordX 0xF065 x) = .ok (.ldVxMem x) :=
  decodeWord_wordX_groupF rfl rfl x

end Sys2Proof
end

section
/-! PROOF. The decoder, the encoder and the opcode table (30_encoding.md R70 to R74, R80 to R85): decoding undoes encoding and
encoding undoes decoding, a word fits a row exactly if it is some instruction's encoding, and the rows exclude each other. -/

namespace Sys2Proof

/-! ### Decoding undoes encoding -/

theorem decodeWord_encode : ∀ i : Instr, decodeWord (encode i) = .ok i
  | .cls => rfl
  | .ret => rfl
  | .jp nnn => decodeWord_jp nnn
  | .call nnn => decodeWord_call nnn
  | .seImm x nn => decodeWord_seImm x nn
  | .sneImm x nn => decodeWord_sneImm x nn
  | .seReg x y => decodeWord_seReg x y
  | .ldImm x nn => decodeWord_ldImm x nn
  | .addImm x nn => decodeWord_addImm x nn
  | .ldReg x y => decodeWord_ldReg x y
  | .orReg x y => decodeWord_orReg x y
  | .andReg x y => decodeWord_andReg x y
  | .xorReg x y => decodeWord_xorReg x y
  | .addReg x y => decodeWord_addReg x y
  | .sub x y => decodeWord_sub x y
  | .shr x y => decodeWord_shr x y
  | .subn x y => decodeWord_subn x y
  | .shl x y => decodeWord_shl x y
  | .sneReg x y => decodeWord_sneReg x y
  | .ldI nnn => decodeWord_ldI nnn
  | .jpV0 nnn => decodeWord_jpV0 nnn
  | .rnd x nn => decodeWord_rnd x nn
  | .drw x y n => decodeWord_drw x y n
  | .skp x => decodeWord_skp x
  | .sknp x => decodeWord_sknp x
  | .ldVxDt x => decodeWord_ldVxDt x
  | .ldVxK x => decodeWord_ldVxK x
  | .ldDtVx x => decodeWord_ldDtVx x
  | .ldStVx x => decodeWord_ldStVx x
  | .addIVx x => decodeWord_addIVx x
  | .ldFVx x => decodeWord_ldFVx x
  | .ldBVx x => decodeWord_ldBVx x
  | .ldMemVx x => decodeWord_ldMemVx x
  | .ldVxMem x => decodeWord_ldVxMem x

/-- Decoding a word's two bytes decodes the word and leaves the bytes after it (R70). -/
theorem decode_bytesOfWord (w : Word) (rest : List Byte) :
    decode (bytesOfWord w ++ rest) = (decodeWord w).map fun i => (i, rest) := by
  simp only [bytesOfWord, List.cons_append, List.nil_append, decode, wordOfBytes_bytes]

/-- Settles O8: each format keeps its fixed bits and gives its operands back, so every word decodes to its instruction. -/
theorem decodingAnEncodingGivesItBack : Obligations.DecodingAnEncodingGivesItBack := by
  intro i rest
  rw [decode_bytesOfWord, decodeWord_encode]
  rfl

/-- Settles O9: in every arm of the decoder the word is its fixed bits with its fields put into them. -/
theorem encodingADecodingGivesItBack : Obligations.EncodingADecodingGivesItBack := fun _ _ => encode_of_decodeWord

/-! ### A word that fits a row is an encoding -/

section
variable {w : Word}

/-- The mask of formats `A`, `XB` and `XYN` leaves the group nibble. -/
theorem and_F000 (w : Word) : w &&& 0xF000 = groupWord (fieldG w) := by
  apply BitVec.eq_of_getElem_eq
  intro i hi
  interval_cases i <;> simp [groupWord, fieldG]

/-- The mask of format `XY` leaves the group nibble and the low nibble. -/
theorem and_F00F (w : Word) : w &&& 0xF00F = groupWord (fieldG w) ||| (fieldN w).setWidth 16 := by
  apply BitVec.eq_of_getElem_eq
  intro i hi
  interval_cases i <;> simp [groupWord, fieldG, fieldN]

/-- The mask of format `X` leaves the group nibble and the low byte. -/
theorem and_F0FF (w : Word) : w &&& 0xF0FF = groupWord (fieldG w) ||| (fieldNN w).setWidth 16 := by
  apply BitVec.eq_of_getElem_eq
  intro i hi
  interval_cases i <;> simp [groupWord, fieldG, fieldNN]

theorem wordA_of_masked {base : Word} (h : w &&& 0xF000 = base) : wordA base (fieldNNN w) = w :=
  wordA_of_fixed ((and_F000 w).symm.trans h)

theorem wordXB_of_masked {base : Word} (h : w &&& 0xF000 = base) : wordXB base (fieldX w) (fieldNN w) = w :=
  wordXB_of_fixed ((and_F000 w).symm.trans h)

theorem wordXYN_of_masked {base : Word} (h : w &&& 0xF000 = base) :
    wordXYN base (fieldX w) (fieldY w) (fieldN w) = w :=
  wordXYN_of_fixed ((and_F000 w).symm.trans h)

theorem wordXY_of_masked {base : Word} (h : w &&& 0xF00F = base) : wordXY base (fieldX w) (fieldY w) = w :=
  wordXY_of_fixed ((and_F00F w).symm.trans h)

theorem wordX_of_masked {base : Word} (h : w &&& 0xF0FF = base) : wordX base (fieldX w) = w :=
  wordX_of_fixed ((and_F0FF w).symm.trans h)

theorem exists_encode_of_plain {r : OpcodeRow} (hr : r ∈ opcodeRowsPlain) (h : w &&& r.mask = r.pattern) :
    ∃ i, encode i = w := by
  simp only [opcodeRowsPlain, List.mem_cons, List.not_mem_nil, or_false] at hr
  rcases hr with rfl | rfl | rfl | rfl | rfl | rfl | rfl | rfl | rfl
  · exact ⟨.cls, h.symm.trans (BitVec.and_allOnes (x := w))⟩
  · exact ⟨.ret, h.symm.trans (BitVec.and_allOnes (x := w))⟩
  · exact ⟨.jp _, wordA_of_masked h⟩
  · exact ⟨.call _, wordA_of_masked h⟩
  · exact ⟨.seImm _ _, wordXB_of_masked h⟩
  · exact ⟨.sneImm _ _, wordXB_of_masked h⟩
  · exact ⟨.seReg _ _, wordXY_of_masked h⟩
  · exact ⟨.ldImm _ _, wordXB_of_masked h⟩
  · exact ⟨.addImm _ _, wordXB_of_masked h⟩

theorem exists_encode_of_group8 {r : OpcodeRow} (hr : r ∈ opcodeRowsGroup8) (h : w &&& r.mask = r.pattern) :
    ∃ i, encode i = w := by
  simp only [opcodeRowsGroup8, List.mem_cons, List.not_mem_nil, or_false] at hr
  rcases hr with rfl | rfl | rfl | rfl | rfl | rfl | rfl | rfl | rfl
  · exact ⟨.ldReg _ _, wordXY_of_masked h⟩
  · exact ⟨.orReg _ _, wordXY_of_masked h⟩
  · exact ⟨.andReg _ _, wordXY_of_masked h⟩
  · exact ⟨.xorReg _ _, wordXY_of_masked h⟩
  · exact ⟨.addReg _ _, wordXY_of_masked h⟩
  · exact ⟨.sub _ _, wordXY_of_masked h⟩
  · exact ⟨.shr _ _, wordXY_of_masked h⟩
  · exact ⟨.subn _ _, wordXY_of_masked h⟩
  · exact ⟨.shl _ _, wordXY_of_masked h⟩

theorem exists_encode_of_middle {r : OpcodeRow} (hr : r ∈ opcodeRowsMiddle) (h : w &&& r.mask = r.pattern) :
    ∃ i, encode i = w := by
  simp only [opcodeRowsMiddle, List.mem_cons, List.not_mem_nil, or_false] at hr
  rcases hr with rfl | rfl | rfl | rfl | rfl
  · exact ⟨.sneReg _ _, wordXY_of_masked h⟩
  · exact ⟨.ldI _, wordA_of_masked h⟩
  · exact ⟨.jpV0 _, wordA_of_masked h⟩
  · exact ⟨.rnd _ _, wordXB_of_masked h⟩
  · exact ⟨.drw _ _ _, wordXYN_of_masked h⟩

theorem exists_encode_of_subNN {r : OpcodeRow} (hr : r ∈ opcodeRowsSubNN) (h : w &&& r.mask = r.pattern) :
    ∃ i, encode i = w := by
  simp only [opcodeRowsSubNN, List.mem_cons, List.not_mem_nil, or_false] at hr
  rcases hr with rfl | rfl | rfl | rfl | rfl | rfl | rfl | rfl | rfl | rfl | rfl
  · exact ⟨.skp _, wordX_of_masked h⟩
  · exact ⟨.sknp _, wordX_of_masked h⟩
  · exact ⟨.ldVxDt _, wordX_of_masked h⟩
  · exact ⟨.ldVxK _, wordX_of_masked h⟩
  · exact ⟨.ldDtVx _, wordX_of_masked h⟩
  · exact ⟨.ldStVx _, wordX_of_masked h⟩
  · exact ⟨.addIVx _, wordX_of_masked h⟩
  · exact ⟨.ldFVx _, wordX_of_masked h⟩
  · exact ⟨.ldBVx _, wordX_of_masked h⟩
  · exact ⟨.ldMemVx _, wordX_of_masked h⟩
  · exact ⟨.ldVxMem _, wordX_of_masked h⟩

theorem OpcodeRow.fits_iff (r : OpcodeRow) (w : Word) : r.fits w = true ↔ w &&& r.mask = r.pattern := beq_iff_eq

/-- Every legal word is some instruction's encoding (R84). -/
theorem exists_encode_of_legal (h : wordLegal w = true) : ∃ i, encode i = w := by
  obtain ⟨r, hr, hfits⟩ := List.any_eq_true.mp h
  have hw := (r.fits_iff w).mp hfits
  simp only [opcodeRows, List.mem_append] at hr
  rcases hr with ((hr | hr) | hr) | hr
  · exact exists_encode_of_plain hr hw
  · exact exists_encode_of_group8 hr hw
  · exact exists_encode_of_middle hr hw
  · exact exists_encode_of_subNN hr hw

end

/-- Settles O10: a word that decodes is an encoding, which is legal; a legal word is an encoding, which decodes. -/
theorem decoderAcceptsExactlyTheTable : Obligations.DecoderAcceptsExactlyTheTable := by
  intro w
  constructor
  · rintro ⟨i, hi⟩
    exact wordLegal_of_decodeWord hi
  · intro h
    obtain ⟨i, rfl⟩ := exists_encode_of_legal h
    exact ⟨i, decodeWord_encode i⟩

/-! ### The rows exclude each other -/

/-- The rows' patterns differ in a bit that both masks look at. -/
def OpcodeRow.Excludes (r q : OpcodeRow) : Prop := r.pattern &&& q.mask ≠ q.pattern &&& r.mask

theorem OpcodeRow.not_excludes_of_fits {r q : OpcodeRow} {w : Word} (hr : r.fits w = true) (hq : q.fits w = true) :
    ¬r.Excludes q := by
  rw [OpcodeRow.fits_iff] at hr hq
  intro hne
  refine hne ?_
  calc r.pattern &&& q.mask = w &&& r.mask &&& q.mask := by rw [hr]
    _ = w &&& q.mask &&& r.mask := by ac_rfl
    _ = q.pattern &&& r.mask := by rw [hq]

theorem opcodeRows_pairwise_excludes : opcodeRows.Pairwise OpcodeRow.Excludes := by
  unfold OpcodeRow.Excludes
  decide

/-- Settles O11: two rows of the table differ in a bit that both masks look at, so no word fits both. -/
theorem tableRowsNeverOverlap : Obligations.TableRowsNeverOverlap := by
  intro w r q hr hq hrw hqw
  by_contra hne
  have hsymm : Std.Symm OpcodeRow.Excludes := ⟨fun _ _ h => h.symm⟩
  exact OpcodeRow.not_excludes_of_fits hrw hqw (opcodeRows_pairwise_excludes.forall hr hq hne)

/-- Settles O12: each of the sixteen words is written out, and the decoder is run on it. -/
theorem wordsOfTheSpecDecode : Obligations.WordsOfTheSpecDecode := by
  unfold Obligations.WordsOfTheSpecDecode
  decide

end Sys2Proof
end

section
/-! SUPPORT. The frames of the state's other updates, and what each instruction left executes as: the instructions that can
raise an error have one equation for each outcome (60_exceptions.md R223). -/

namespace Sys2Proof.Machine

/-! ### Frames -/

section
variable {parts : List Part} {s t : State}

/-- A write of `PC` stays within a frame that lists it. -/
theorem OnlyChanges.setPc (h : OnlyChanges parts s t) (hpc : .pc ∈ parts) (w : Word) :
    OnlyChanges parts s (t.setPc w) := by
  intro p hp
  cases p with
  | pc => exact absurd hpc hp
  | regs | mem | fb | index | stack | dt | st | run | image | draws | answers | schedule | pulses => exact h _ hp

/-- A write of the stack stays within a frame that lists it. -/
theorem OnlyChanges.setStack (h : OnlyChanges parts s t) (hstack : .stack ∈ parts) (xs : List Word) :
    OnlyChanges parts s (t.setStack xs) := by
  intro p hp
  cases p with
  | stack => exact absurd hstack hp
  | regs | mem | fb | index | pc | dt | st | run | image | draws | answers | schedule | pulses => exact h _ hp

/-- A write of memory stays within a frame that lists it. -/
theorem OnlyChanges.setMem (h : OnlyChanges parts s t) (hmem : .mem ∈ parts) (m : Memory) :
    OnlyChanges parts s (t.setMem m) := by
  intro p hp
  cases p with
  | mem => exact absurd hmem hp
  | regs | stack | fb | index | pc | dt | st | run | image | draws | answers | schedule | pulses => exact h _ hp

/-- A write of the framebuffer stays within a frame that lists it. -/
theorem OnlyChanges.setFb (h : OnlyChanges parts s t) (hfb : .fb ∈ parts) (g : Framebuffer) :
    OnlyChanges parts s (t.setFb g) := by
  intro p hp
  cases p with
  | fb => exact absurd hfb hp
  | regs | stack | mem | index | pc | dt | st | run | image | draws | answers | schedule | pulses => exact h _ hp

/-- A write of the run state stays within a frame that lists it. -/
theorem OnlyChanges.setRun (h : OnlyChanges parts s t) (hrun : .run ∈ parts) (r : Run) :
    OnlyChanges parts s (t.setRun r) := by
  intro p hp
  cases p with
  | run => exact absurd hrun hp
  | regs | stack | mem | index | pc | dt | st | fb | image | draws | answers | schedule | pulses => exact h _ hp

/-- A question to the environment stays within a frame that lists the count of answers and the answers in store. -/
theorem OnlyChanges.drawn (h : OnlyChanges parts s t) (hdraws : .draws ∈ parts) (hanswers : .answers ∈ parts) :
    OnlyChanges parts s t.drawn := by
  intro p hp
  cases p with
  | draws => exact absurd hdraws hp
  | answers => exact absurd hanswers hp
  | regs | stack | mem | index | pc | dt | st | fb | run | image | schedule | pulses => exact h _ hp

/-- A block load stays within a frame that lists the registers. -/
theorem OnlyChanges.setRegsFrom (h : OnlyChanges parts s t) (hregs : .regs ∈ parts) (k : Nat) (bs : List Byte) :
    OnlyChanges parts s (t.setRegsFrom k bs) := by
  induction bs generalizing t k with
  | nil => exact h
  | cons b rest ih => exact ih (h.setReg hregs _ b) (k + 1)

end

theorem onlyChanges_setRun (s : State) (r : Run) : OnlyChanges [.run] s (s.setRun r) :=
  (OnlyChanges.refl _ s).setRun (by decide) r

/-- An error raised changes the run state and nothing else (R223). -/
theorem onlyChanges_raise (s : State) (e : Error) : OnlyChanges [.run] s (s.raise e) :=
  onlyChanges_setRun s _

/-! ### Instructions that cannot raise an error -/

theorem exec_orReg (x y : Reg) (s : State) : exec (.orReg x y) s = .next (s.setReg x (s.reg x ||| s.reg y)).advance := rfl

theorem exec_andReg (x y : Reg) (s : State) : exec (.andReg x y) s = .next (s.setReg x (s.reg x &&& s.reg y)).advance := rfl

theorem exec_xorReg (x y : Reg) (s : State) : exec (.xorReg x y) s = .next (s.setReg x (s.reg x ^^^ s.reg y)).advance := rfl

theorem exec_shr (x y : Reg) (s : State) :
    exec (.shr x y) s = .next (s.setRegFlag x (s.reg x >>> 1) (lowBit (s.reg x))).advance := rfl

theorem exec_shl (x y : Reg) (s : State) :
    exec (.shl x y) s = .next (s.setRegFlag x (s.reg x <<< 1) (highBit (s.reg x))).advance := rfl

theorem exec_rnd (x : Reg) (nn : Byte) (s : State) :
    exec (.rnd x nn) s = .next (s.drawn.setReg x (nn &&& s.rand8)).advance := rfl

theorem exec_sneReg (x y : Reg) (s : State) : exec (.sneReg x y) s = .next (s.skipIf (s.reg x != s.reg y)) := rfl

theorem exec_jpV0 (nnn : Addr) (s : State) : exec (.jpV0 nnn) s = .next (s.setPc (jumpTarget nnn (s.reg 0))) := rfl

theorem exec_addIVx (x : Reg) (s : State) :
    exec (.addIVx x) s = .next (s.setIndex (s.index + (s.reg x).setWidth 16)).advance := rfl

theorem exec_skp (x : Reg) (s : State) : exec (.skp x) s = .next (s.drawn.skipIf (s.keyDown (s.reg x))) := rfl

theorem exec_sknp (x : Reg) (s : State) : exec (.sknp x) s = .next (s.drawn.skipIf (!s.keyDown (s.reg x))) := rfl

theorem exec_ldVxK (x : Reg) (s : State) : exec (.ldVxK x) s = .next (s.setRun (.awaitingKey x)) := rfl

/-- The target of `BNNN` is the exact sum: it is at most 4350 (R127). -/
theorem jumpTarget_toNat (nnn : Addr) (v0 : Byte) : (jumpTarget nnn v0).toNat = nnn.toNat + v0.toNat := by
  simp only [jumpTarget, BitVec.toNat_add, BitVec.toNat_setWidth]
  omega

/-! ### Instructions that can raise an error -/

theorem exec_call_ok (nnn : Addr) (s : State) (h : s.stack.length < stackDepth) :
    exec (.call nnn) s = .next ((s.setStack (s.stack ++ [s.pc + 2])).setPc (addrWord nnn)) := by
  rw [exec, execCall, s.push_ok h]
  rfl

theorem exec_call_full (nnn : Addr) (s : State) (h : stackDepth ≤ s.stack.length) :
    exec (.call nnn) s = .next (s.raise (.stackOverflow s.pc)) := by
  rw [exec, execCall, s.push_full h]
  rfl

theorem exec_ret_ok (s : State) {xs : List Word} {w : Word} (h : s.stack = xs ++ [w]) :
    exec .ret s = .next ((s.setStack xs).setPc w) := by
  rw [exec, execRet, s.pop_ok h]
  rfl

theorem exec_ret_empty (s : State) (h : s.stack = []) : exec .ret s = .next (s.raise (.stackUnderflow s.pc)) := by
  rw [exec, execRet, s.pop_empty h]
  rfl

/-- The error of a data access that leaves the address space: the lowest failing address, from `I` on (R51, D7). -/
def State.dataError (s : State) : Error := .outOfBounds (max s.index.toNat 4096) s.pc

/-- The draw of `DXYN` on the framebuffer, with the sprite at `I` and its corner at `V[x]`, `V[y]` (R102). -/
def State.canvas (s : State) (x y : Reg) (n : BitVec 4) : Canvas :=
  blit (s.reg x).toNat (s.reg y).toNat (s.sprite n.toNat) ⟨s.fb, false⟩

/-- The state after a `DXYN` that raised no error: the draw's framebuffer, then its collision in `VF`, `PC` advanced. -/
def State.painted (s : State) (x y : Reg) (n : BitVec 4) : State :=
  ((s.setFb (s.canvas x y n).fb).setReg vf (flagByte (s.canvas x y n).collide)).advance

theorem exec_drw_ok (x y : Reg) (n : BitVec 4) (s : State) (h : n.toNat = 0 ∨ s.index.toNat + n.toNat ≤ 4096) :
    exec (.drw x y n) s = .next (s.painted x y n) := by
  rw [exec, execDrw, State.draw, State.dataAddr, s.readBytes_ok h]
  rfl

theorem exec_drw_error (x y : Reg) (n : BitVec 4) (s : State) (h0 : n.toNat ≠ 0)
    (h : 4096 < s.index.toNat + n.toNat) :
    exec (.drw x y n) s = .next (s.raise s.dataError) := by
  rw [exec, execDrw, State.draw, State.dataAddr, s.readBytes_error h0 h]
  rfl

/-- A store that stays inside the address space writes its bytes from `I` on and advances `PC`. -/
theorem State.settle_writeBytes_ok (s : State) {bs : List Byte} (h : s.index.toNat + bs.length ≤ 4096) :
    s.settle ((s.writeBytes s.dataAddr bs).map State.advance) =
      .next (s.setMem (s.mem.setBytes s.dataAddr bs)).advance := by
  rw [State.dataAddr, s.writeBytes_ok (.inr h)]
  rfl

theorem State.settle_writeBytes_error (s : State) {bs : List Byte} (h0 : bs.length ≠ 0)
    (h : 4096 < s.index.toNat + bs.length) :
    s.settle ((s.writeBytes s.dataAddr bs).map State.advance) = .next (s.raise s.dataError) := by
  rw [State.dataAddr, s.writeBytes_error h0 h]
  rfl

theorem exec_ldBVx_ok (x : Reg) (s : State) (h : s.index.toNat + 2 < 4096) :
    exec (.ldBVx x) s = .next (s.setMem (s.mem.setBytes s.dataAddr (bcdDigits (s.reg x)))).advance :=
  s.settle_writeBytes_ok h

theorem exec_ldBVx_error (x : Reg) (s : State) (h : 4096 ≤ s.index.toNat + 2) :
    exec (.ldBVx x) s = .next (s.raise s.dataError) :=
  s.settle_writeBytes_error (bs := bcdDigits (s.reg x)) (Nat.succ_ne_zero 2) (Nat.lt_succ_of_le h)

theorem exec_ldMemVx_ok (x : Reg) (s : State) (h : s.index.toNat + x.toNat < 4096) :
    exec (.ldMemVx x) s = .next (s.setMem (s.mem.setBytes s.dataAddr (s.regsUpTo x))).advance :=
  s.settle_writeBytes_ok (by rw [s.regsUpTo_length]; exact h)

theorem exec_ldMemVx_error (x : Reg) (s : State) (h : 4096 ≤ s.index.toNat + x.toNat) :
    exec (.ldMemVx x) s = .next (s.raise s.dataError) :=
  s.settle_writeBytes_error (by simp) (by rw [s.regsUpTo_length]; omega)

theorem exec_ldVxMem_ok (x : Reg) (s : State) (h : s.index.toNat + x.toNat < 4096) :
    exec (.ldVxMem x) s = .next (s.setRegsFrom 0 (s.sprite (x.toNat + 1))).advance := by
  rw [exec, execLdVxMem, s.readBytes_ok (.inr h)]
  rfl

theorem exec_ldVxMem_error (x : Reg) (s : State) (h : 4096 ≤ s.index.toNat + x.toNat) :
    exec (.ldVxMem x) s = .next (s.raise s.dataError) := by
  rw [exec, execLdVxMem, State.dataAddr, s.readBytes_error (Nat.succ_ne_zero _) (Nat.lt_succ_of_le h)]
  rfl

/-! ### The bytes a draw and a block load read, and the registers the load leaves -/

section
variable (s : State)

@[simp] theorem State.sprite_length (n : Nat) : (s.sprite n).length = n := by
  simp [State.sprite]

theorem State.sprite_getD {n k : Nat} (hk : k < n) : (s.sprite n).getD k 0 = s.byte (s.index.toNat + k) := by
  simp [State.sprite, List.getD_eq_getElem?_getD, hk]

/-- A block load gives a register up to `V[x]` its byte, and keeps the registers above (R186). -/
theorem reg_of_loaded (x k : Reg) :
    (s.setRegsFrom 0 (s.sprite (x.toNat + 1))).advance.reg k =
      if k.toNat ≤ x.toNat then s.byte (s.index.toNat + k.toNat) else s.reg k := by
  have hx : 0 + (s.sprite (x.toNat + 1)).length ≤ 16 := by
    rw [s.sprite_length]
    omega
  rw [State.advance_reg, s.setRegsFrom_reg 0 _ k hx, s.sprite_length]
  by_cases hk : k.toNat ≤ x.toNat
  · rw [if_pos hk, if_pos (by omega), Nat.sub_zero, s.sprite_getD (Nat.lt_succ_of_le hk)]
  · rw [if_neg hk, if_neg (by omega)]

end

/-! ### The two outcomes of an instruction that can raise an error -/

theorem exec_call_cases (nnn : Addr) (s : State) :
    (s.stack.length < stackDepth ∧
        exec (.call nnn) s = .next ((s.setStack (s.stack ++ [s.pc + 2])).setPc (addrWord nnn))) ∨
      exec (.call nnn) s = .next (s.raise (.stackOverflow s.pc)) := by
  by_cases h : s.stack.length < stackDepth
  · exact .inl ⟨h, exec_call_ok nnn s h⟩
  · exact .inr (exec_call_full nnn s (Nat.le_of_not_lt h))

theorem exec_ret_cases (s : State) :
    (∃ xs w, s.stack = xs ++ [w] ∧ exec .ret s = .next ((s.setStack xs).setPc w)) ∨
      exec .ret s = .next (s.raise (.stackUnderflow s.pc)) := by
  rcases List.eq_nil_or_concat' s.stack with h | ⟨xs, w, h⟩
  · exact .inr (exec_ret_empty s h)
  · exact .inl ⟨xs, w, h, exec_ret_ok s h⟩

theorem exec_drw_cases (x y : Reg) (n : BitVec 4) (s : State) :
    ((n.toNat = 0 ∨ s.index.toNat + n.toNat ≤ 4096) ∧ exec (.drw x y n) s = .next (s.painted x y n)) ∨
      exec (.drw x y n) s = .next (s.raise s.dataError) := by
  by_cases h : n.toNat = 0 ∨ s.index.toNat + n.toNat ≤ 4096
  · exact .inl ⟨h, exec_drw_ok x y n s h⟩
  · exact .inr (exec_drw_error x y n s (by omega) (by omega))

theorem exec_ldBVx_cases (x : Reg) (s : State) :
    (s.index.toNat + 2 < 4096 ∧
        exec (.ldBVx x) s = .next (s.setMem (s.mem.setBytes s.dataAddr (bcdDigits (s.reg x)))).advance) ∨
      exec (.ldBVx x) s = .next (s.raise s.dataError) := by
  by_cases h : s.index.toNat + 2 < 4096
  · exact .inl ⟨h, exec_ldBVx_ok x s h⟩
  · exact .inr (exec_ldBVx_error x s (Nat.le_of_not_lt h))

theorem exec_ldMemVx_cases (x : Reg) (s : State) :
    (s.index.toNat + x.toNat < 4096 ∧
        exec (.ldMemVx x) s = .next (s.setMem (s.mem.setBytes s.dataAddr (s.regsUpTo x))).advance) ∨
      exec (.ldMemVx x) s = .next (s.raise s.dataError) := by
  by_cases h : s.index.toNat + x.toNat < 4096
  · exact .inl ⟨h, exec_ldMemVx_ok x s h⟩
  · exact .inr (exec_ldMemVx_error x s (Nat.le_of_not_lt h))

theorem exec_ldVxMem_cases (x : Reg) (s : State) :
    (s.index.toNat + x.toNat < 4096 ∧
        exec (.ldVxMem x) s = .next (s.setRegsFrom 0 (s.sprite (x.toNat + 1))).advance) ∨
      exec (.ldVxMem x) s = .next (s.raise s.dataError) := by
  by_cases h : s.index.toNat + x.toNat < 4096
  · exact .inl ⟨h, exec_ldVxMem_ok x s h⟩
  · exact .inr (exec_ldVxMem_error x s (Nat.le_of_not_lt h))

end Sys2Proof.Machine
end

section
/-! PROOF. The invariant that every step keeps (10_state.md R28, R30; 20_memory.md R50): one lemma for the execute phase, one
for each event. -/

namespace Sys2Proof.Machine

/-! ### States that keep the invariant -/

section
variable {s t : State}

/-- The invariant speaks of memory, stack, `PC` and run state alone. -/
theorem State.Inv.congr (h : s.Inv) (hmem : t.mem = s.mem) (hstack : t.stack = s.stack) (hpc : t.pc = s.pc)
    (hrun : t.run = s.run) : t.Inv where
  memWf := hmem ▸ h.memWf
  stackFits := hstack ▸ h.stackFits
  returnsLow := hstack ▸ h.returnsLow
  pcLow := hpc ▸ h.pcLow
  waitLow := hpc ▸ hrun ▸ h.waitLow

/-- A state that does not wait for a key may have any `PC` up to the largest target of `BNNN`. -/
theorem State.Inv.of_pc (h : s.Inv) (hmem : t.mem = s.mem) (hstack : t.stack = s.stack) (hpc : t.pc.toNat ≤ 0x10FE)
    (hrun : ∀ x, t.run ≠ .awaitingKey x) : t.Inv where
  memWf := hmem ▸ h.memWf
  stackFits := hstack ▸ h.stackFits
  returnsLow := hstack ▸ h.returnsLow
  pcLow := hpc
  waitLow x hx := absurd hx (hrun x)

/-- Raising an error keeps the invariant: a halted engine does not wait. -/
theorem State.Inv.raise (h : s.Inv) (e : Error) : (s.raise e).Inv := h.of_pc rfl rfl h.pcLow nofun

/-- Writing canonical memory keeps the invariant. -/
theorem State.Inv.setMem (h : s.Inv) {m : Memory} (hm : m.wf = true) : (s.setMem m).Inv :=
  ⟨hm, h.stackFits, h.returnsLow, h.pcLow, h.waitLow⟩

/-- Writing a stack within its bound, of low return addresses, keeps the invariant. -/
theorem State.Inv.setStack (h : s.Inv) {xs : List Word} (hlen : xs.length ≤ stackDepth)
    (hlow : ∀ w ∈ xs, w.toNat ≤ 4096) : (s.setStack xs).Inv :=
  ⟨h.memWf, hlen, hlow, h.pcLow, h.waitLow⟩

end

/-! ### `PC` after an instruction -/

theorem pc_advance_le {w : Word} (h : w.toNat ≤ 4094) : (w + 2).toNat ≤ 4096 := by bv_omega

theorem pc_skip_le {w : Word} (h : w.toNat ≤ 4094) (c : Bool) :
    (if c then w + 4 else w + 2).toNat ≤ 0x10FE := by
  cases c
  · exact (pc_advance_le h).trans (by decide)
  · show (w + 4).toNat ≤ 0x10FE
    bv_omega

theorem addrWord_le (nnn : Addr) : (addrWord nnn).toNat ≤ 0x10FE := by
  rw [addrWord_toNat]
  omega

theorem jumpTarget_le (nnn : Addr) (v0 : Byte) : (jumpTarget nnn v0).toNat ≤ 0x10FE := by
  rw [jumpTarget_toNat]
  omega

/-! ### The execute phase -/

/-- An instruction executed by the running engine, at a `PC` it can have been fetched from. -/
structure State.Executing (s : State) : Prop where
  inv : s.Inv
  running : s.run = .running
  fetchable : s.pc.toNat ≤ 4094

section
variable {s t u : State}

/-- What is left of the invariant where an instruction wrote neither memory nor stack nor run state: `PC` stays low. -/
theorem State.Executing.keeps (h : s.Executing) (hmem : t.mem = s.mem) (hstack : t.stack = s.stack)
    (hrun : t.run = s.run) (hpc : t.pc.toNat ≤ 0x10FE) : t.Inv :=
  h.inv.of_pc hmem hstack hpc (by simp [hrun, h.running])

/-- The default advance after writes to anything but memory, stack, `PC` and run state keeps the invariant. -/
theorem State.Executing.advance (h : s.Executing) (hmem : u.mem = s.mem) (hstack : u.stack = s.stack)
    (hrun : u.run = s.run) (hpc : u.pc = s.pc) : u.advance.Inv :=
  h.keeps hmem hstack hrun ((pc_advance_le (hpc ▸ h.fetchable)).trans (by decide))

/-- A skip keeps the invariant. -/
theorem State.Executing.skipIf (h : s.Executing) (hmem : u.mem = s.mem) (hstack : u.stack = s.stack)
    (hrun : u.run = s.run) (hpc : u.pc = s.pc) (c : Bool) : (u.skipIf c).Inv :=
  h.keeps hmem hstack hrun (pc_skip_le (hpc ▸ h.fetchable) c)

/-- A store that stays inside the address space keeps the invariant. -/
theorem State.Executing.store (h : s.Executing) {bs : List Byte} (hfit : s.index.toNat + bs.length ≤ 4096) :
    (s.setMem (s.mem.setBytes s.dataAddr bs)).advance.Inv :=
  (h.inv.setMem (Memory.wf_setBytes _ _ _ hfit h.inv.memWf)).of_pc rfl rfl
    ((pc_advance_le h.fetchable).trans (by decide)) (by simp [h.running])

/-- A call pushes the address after it, which is at most 4096 (R28, D5). -/
theorem State.Executing.call (h : s.Executing) (nnn : Addr) (hroom : s.stack.length < stackDepth) :
    ((s.setStack (s.stack ++ [s.pc + 2])).setPc (addrWord nnn)).Inv := by
  have hstack : (s.setStack (s.stack ++ [s.pc + 2])).Inv := by
    refine h.inv.setStack (by simpa using hroom) fun w hw => ?_
    rcases List.mem_append.mp hw with hw | hw
    · exact h.inv.returnsLow w hw
    · exact List.mem_singleton.mp hw ▸ pc_advance_le h.fetchable
  exact hstack.of_pc rfl rfl (addrWord_le nnn) (by simp [h.running])

/-- A return goes to an address of the stack, which is at most 4096. -/
theorem State.Executing.ret (h : s.Executing) {xs : List Word} {w : Word} (htop : s.stack = xs ++ [w]) :
    ((s.setStack xs).setPc w).Inv := by
  have hfits : xs.length + 1 ≤ stackDepth := by simpa [htop] using h.inv.stackFits
  have hlow : ∀ v ∈ xs ++ [w], v.toNat ≤ 4096 := htop ▸ h.inv.returnsLow
  have hstack : (s.setStack xs).Inv :=
    h.inv.setStack (Nat.le_of_succ_le hfits) fun v hv => hlow v (List.mem_append_left _ hv)
  exact hstack.of_pc rfl rfl ((hlow w (by simp)).trans (by decide)) (by simp [h.running])

/-- An instruction that ends in a state with the invariant or raises an error keeps the invariant. -/
theorem State.Executing.of_cases (h : s.Executing) {i : Instr} {fits : Prop} {e : Error}
    (hcases : (fits ∧ exec i s = .next u) ∨ exec i s = .next (s.raise e)) (hfits : fits → u.Inv)
    (hexec : exec i s = .next t) : t.Inv := by
  rcases hcases with ⟨hf, hok⟩ | herror
  · cases hok.symm.trans hexec
    exact hfits hf
  · cases herror.symm.trans hexec
    exact h.inv.raise e

/-- Executing any instruction keeps the invariant. -/
theorem State.Executing.inv_exec (h : s.Executing) {i : Instr} (hexec : exec i s = .next t) : t.Inv := by
  cases i with
  | call nnn => exact h.of_cases (exec_call_cases nnn s) (h.call nnn) hexec
  | ret =>
    rcases exec_ret_cases s with ⟨xs, w, htop, hok⟩ | herror
    · cases hok.symm.trans hexec
      exact h.ret htop
    · cases herror.symm.trans hexec
      exact h.inv.raise _
  | drw x y n => exact h.of_cases (exec_drw_cases x y n s) (fun _ => h.advance rfl rfl rfl rfl) hexec
  | ldBVx x => exact h.of_cases (exec_ldBVx_cases x s) (fun hfit => h.store hfit) hexec
  | ldMemVx x =>
    exact h.of_cases (exec_ldMemVx_cases x s) (fun hfit => h.store (by rwa [s.regsUpTo_length])) hexec
  | ldVxMem x =>
    have hok : (s.setRegsFrom 0 (s.sprite (x.toNat + 1))).advance.Inv :=
      h.advance (s.setRegsFrom_mem ..) (s.setRegsFrom_stack ..) (s.setRegsFrom_run ..) (s.setRegsFrom_pc ..)
    exact h.of_cases (exec_ldVxMem_cases x s) (fun _ => hok) hexec
  | jp nnn =>
    cases hexec
    exact h.keeps rfl rfl rfl (addrWord_le nnn)
  | jpV0 nnn =>
    cases hexec
    exact h.keeps rfl rfl rfl (jumpTarget_le nnn _)
  | seImm | sneImm | seReg | sneReg =>
    cases hexec
    exact h.skipIf rfl rfl rfl rfl _
  | skp | sknp =>
    cases hexec
    exact h.skipIf (u := s.drawn) rfl rfl rfl rfl _
  | ldVxK x =>
    cases hexec
    exact ⟨h.inv.memWf, h.inv.stackFits, h.inv.returnsLow, h.inv.pcLow, fun _ _ => h.fetchable⟩
  | cls | ldImm | addImm | ldReg | orReg | andReg | xorReg | addReg | sub | shr | subn | shl | ldI | rnd | ldVxDt
  | ldDtVx | ldStVx | addIVx | ldFVx =>
    cases hexec
    exact h.advance rfl rfl rfl rfl

end

/-! ### The events -/

section
variable {s t : State}

theorem State.Inv.awaitKeyPoll (h : s.Inv) {x : Reg} (hrun : s.run = .awaitingKey x) : (s.awaitKeyPoll x).Inv := by
  unfold State.awaitKeyPoll
  cases s.keyEvent with
  | none => exact h.congr rfl rfl rfl rfl
  | some k => exact h.of_pc rfl rfl ((pc_advance_le (h.waitLow x hrun)).trans (by decide)) nofun

theorem State.Inv.runInstruction (h : s.Inv) (hrun : s.run = .running) (hnext : runInstruction s = .next t) :
    t.Inv := by
  rcases runInstruction_cases s with ⟨_, hfault⟩ | ⟨hpc, w, _, ⟨_, _, hillegal⟩ | ⟨i, _, hexec⟩⟩
  · cases hfault.symm.trans hnext
    exact h.raise _
  · cases hillegal.symm.trans hnext
    exact h.raise _
  · exact State.Executing.inv_exec ⟨h, hrun, hpc⟩ (hexec.symm.trans hnext)

theorem State.Inv.cycle (h : s.Inv) (hnext : cycle s = .next t) : t.Inv := by
  cases hrun : s.run with
  | halted e =>
    cases (cycle_halted s hrun).symm.trans hnext
    exact h
  | awaitingKey x =>
    cases (cycle_awaiting s hrun).symm.trans hnext
    exact h.awaitKeyPoll hrun
  | running => exact h.runInstruction hrun ((cycle_running s hrun).symm.trans hnext)

/-- Every piece of state at its reset value meets the invariant, whatever image is loaded. -/
theorem State.inv_restart (s : State) (img : Image) : (s.restart img).Inv := by
  refine ⟨wf_bootMemory img, Nat.zero_le _, nofun, (by decide : (512 : Word).toNat ≤ 0x10FE), ?_⟩
  show ∀ x, (bootMemory img).2 = .awaitingKey x → _
  by_cases hfit : 512 + img.prog.length ≤ 4096
  · simp [bootMemory_ok hfit]
  · simp [bootMemory_error (Nat.lt_of_not_le hfit)]

theorem State.Inv.loadImage (h : s.Inv) (img : Image) : (s.loadImage img).Inv := by
  unfold State.loadImage
  split
  · exact (h.setMem (wf_loadFont img h.memWf)).of_pc rfl rfl h.pcLow nofun
  · split
    · exact (s.inv_restart img).of_pc rfl rfl (s.inv_restart img).pcLow nofun
    · exact s.inv_restart img

/-- Handling any event keeps the invariant. -/
theorem State.Inv.handle (h : s.Inv) {e : Event} (hnext : handle e s = .next t) : t.Inv := by
  cases e with
  | cycle => exact h.cycle hnext
  | tick =>
    cases hnext
    exact h.congr rfl rfl rfl rfl
  | rst =>
    cases hnext
    exact s.inv_restart s.image
  | load img =>
    cases hnext
    exact h.loadImage img

end

/-- Settles O19: issuing an event touches no part the invariant speaks of, and handling it keeps the invariant. -/
theorem everyStepKeepsTheInvariant : Obligations.EveryStepKeepsTheInvariant := by
  intro s t h hstep
  have hissued : s.issued.Inv := h.congr rfl rfl rfl rfl
  exact hissued.handle ((step_eq_handle s).symm.trans hstep)

/-- Settles O20: memory is the empty list, the stack is empty, and `PC` is 512. -/
theorem resetMeetsTheInvariant : Obligations.ResetMeetsTheInvariant :=
  ⟨Memory.wf_reset, Nat.zero_le _, nofun, by decide, nofun⟩

end Sys2Proof.Machine
end

section
/-! PROOF. Which parts of the machine each instruction may write (10_state.md sections 2, 4 to 7; 20_memory.md R55), and that an
error is precise (60_exceptions.md R220, R223): one frame for every instruction, from which the whole-machine rules follow. -/

namespace Sys2Proof.Machine

/-! ### One frame for every instruction -/

/-- The parts an instruction may change where it raises no error. -/
def writtenParts : Instr → List Part
  | .cls => [.fb, .pulses, .pc]
  | .ret | .call _ => [.stack, .pc]
  | .jp _ | .jpV0 _ | .seImm _ _ | .sneImm _ _ | .seReg _ _ | .sneReg _ _ => [.pc]
  | .ldImm _ _ | .addImm _ _ | .ldReg _ _ | .orReg _ _ | .andReg _ _ | .xorReg _ _ | .addReg _ _ | .sub _ _ | .shr _ _
  | .subn _ _ | .shl _ _ | .ldVxDt _ | .ldVxMem _ => [.regs, .pc]
  | .rnd _ _ => [.regs, .draws, .answers, .pc]
  | .drw _ _ _ => [.regs, .fb, .pc]
  | .skp _ | .sknp _ => [.pc, .draws, .answers]
  | .ldVxK _ => [.run]
  | .ldDtVx _ => [.dt, .pc]
  | .ldStVx _ => [.st, .pc]
  | .ldI _ | .addIVx _ | .ldFVx _ => [.index, .pc]
  | .ldBVx _ | .ldMemVx _ => [.mem, .pc]

/-- The instruction ends in a state that differs in its written parts only, or raises an error the spec names for it. -/
def EndsFramed (i : Instr) (s : State) : Prop :=
  ∃ t, exec i s = .next t ∧ (OnlyChanges (writtenParts i) s t ∨ ∃ e, canRaise s i e ∧ t = s.raise e)

section
variable {i : Instr} {s t u : State}

theorem EndsFramed.of_next (hexec : exec i s = .next t) (hframe : OnlyChanges (writtenParts i) s t) :
    EndsFramed i s :=
  ⟨t, hexec, .inl hframe⟩

theorem EndsFramed.of_cases {fits : Prop} {e : Error}
    (hcases : (fits ∧ exec i s = .next u) ∨ exec i s = .next (s.raise e)) (hframe : OnlyChanges (writtenParts i) s u)
    (he : canRaise s i e) : EndsFramed i s := by
  rcases hcases with ⟨_, hok⟩ | herror
  · exact .of_next hok hframe
  · exact ⟨_, herror, .inr ⟨e, he, rfl⟩⟩

end

/-! The frames the instructions share -/

section
variable (s : State)

theorem onlyChanges_setReg_advance (x : Reg) (b : Byte) : OnlyChanges [.regs, .pc] s (s.setReg x b).advance :=
  ((OnlyChanges.refl _ s).setReg (by decide) x b).advance (by decide)

theorem onlyChanges_setRegFlag_advance (x : Reg) (b : Byte) (c : Bool) :
    OnlyChanges [.regs, .pc] s (s.setRegFlag x b c).advance :=
  ((OnlyChanges.refl _ s).setRegFlag (by decide) x b c).advance (by decide)

theorem onlyChanges_setIndex_advance (w : Word) : OnlyChanges [.index, .pc] s (s.setIndex w).advance :=
  ((OnlyChanges.refl _ s).setIndex (by decide) w).advance (by decide)

theorem onlyChanges_setMem_advance (m : Memory) : OnlyChanges [.mem, .pc] s (s.setMem m).advance :=
  ((OnlyChanges.refl _ s).setMem (by decide) m).advance (by decide)

theorem onlyChanges_setRegsFrom_advance (k : Nat) (bs : List Byte) :
    OnlyChanges [.regs, .pc] s (s.setRegsFrom k bs).advance :=
  ((OnlyChanges.refl _ s).setRegsFrom (by decide) k bs).advance (by decide)

theorem onlyChanges_painted (x y : Reg) (n : BitVec 4) : OnlyChanges [.regs, .fb, .pc] s (s.painted x y n) :=
  (((OnlyChanges.refl _ s).setFb (by decide) _).setReg (by decide) _ _).advance (by decide)

theorem onlyChanges_drawn_setPc (w : Word) : OnlyChanges [.pc, .draws, .answers] s (s.drawn.setPc w) :=
  ((OnlyChanges.refl _ s).drawn (by decide) (by decide)).setPc (by decide) w

theorem onlyChanges_drawn_setReg_advance (x : Reg) (b : Byte) :
    OnlyChanges [.regs, .draws, .answers, .pc] s (s.drawn.setReg x b).advance :=
  (((OnlyChanges.refl _ s).drawn (by decide) (by decide)).setReg (by decide) x b).advance (by decide)

theorem onlyChanges_setStack_setPc (xs : List Word) (w : Word) :
    OnlyChanges [.stack, .pc] s ((s.setStack xs).setPc w) :=
  ((OnlyChanges.refl _ s).setStack (by decide) xs).setPc (by decide) w

theorem onlyChanges_setDt_advance (b : Byte) : OnlyChanges [.dt, .pc] s (s.setDt b).advance :=
  ((OnlyChanges.refl _ s).setDt (by decide) b).advance (by decide)

theorem onlyChanges_setSt_advance (b : Byte) : OnlyChanges [.st, .pc] s (s.setSt b).advance :=
  ((OnlyChanges.refl _ s).setSt (by decide) b).advance (by decide)

end

/-- Every instruction, in every state, ends framed. -/
theorem exec_endsFramed (i : Instr) (s : State) : EndsFramed i s := by
  cases i with
  | cls => exact .of_next (exec_cls s) (onlyChanges_cleared s)
  | call nnn => exact .of_cases (exec_call_cases nnn s) (onlyChanges_setStack_setPc s _ _) rfl
  | ret =>
    rcases exec_ret_cases s with ⟨xs, w, _, hok⟩ | herror
    · exact .of_next hok (onlyChanges_setStack_setPc s xs w)
    · exact ⟨_, herror, .inr ⟨_, rfl, rfl⟩⟩
  | drw x y n => exact .of_cases (exec_drw_cases x y n s) (onlyChanges_painted s x y n) rfl
  | ldBVx x => exact .of_cases (exec_ldBVx_cases x s) (onlyChanges_setMem_advance s _) rfl
  | ldMemVx x => exact .of_cases (exec_ldMemVx_cases x s) (onlyChanges_setMem_advance s _) rfl
  | ldVxMem x => exact .of_cases (exec_ldVxMem_cases x s) (onlyChanges_setRegsFrom_advance s _ _) rfl
  | ldVxK x => exact .of_next (exec_ldVxK x s) (onlyChanges_setRun s _)
  | ldDtVx x => exact .of_next (exec_ldDtVx x s) (onlyChanges_setDt_advance s _)
  | ldStVx x => exact .of_next (exec_ldStVx x s) (onlyChanges_setSt_advance s _)
  | rnd x nn => exact .of_next (exec_rnd x nn s) (onlyChanges_drawn_setReg_advance s x _)
  | jp | jpV0 | seImm | sneImm | seReg | sneReg => exact .of_next rfl (onlyChanges_setPc s _)
  | skp | sknp => exact .of_next rfl (onlyChanges_drawn_setPc s _)
  | ldI | addIVx | ldFVx => exact .of_next rfl (onlyChanges_setIndex_advance s _)
  | ldImm | addImm | ldReg | orReg | andReg | xorReg | ldVxDt => exact .of_next rfl (onlyChanges_setReg_advance s _ _)
  | addReg | sub | shr | subn | shl => exact .of_next rfl (onlyChanges_setRegFlag_advance s _ _ _)

/-- Every instruction answers a next state. -/
theorem exec_next (i : Instr) (s : State) : ∃ t, exec i s = .next t :=
  (exec_endsFramed i s).imp fun _ h => h.1

/-! ### Every step answers -/

theorem runInstruction_next (s : State) : ∃ t, runInstruction s = .next t := by
  rcases runInstruction_cases s with ⟨_, hfault⟩ | ⟨_, _, _, ⟨_, _, hillegal⟩ | ⟨i, _, hexec⟩⟩
  · exact ⟨_, hfault⟩
  · exact ⟨_, hillegal⟩
  · exact hexec ▸ exec_next i s

theorem cycle_next (s : State) : ∃ t, cycle s = .next t := by
  cases hrun : s.run with
  | halted e => exact ⟨_, cycle_halted s hrun⟩
  | awaitingKey x => exact ⟨_, cycle_awaiting s hrun⟩
  | running => exact cycle_running s hrun ▸ runInstruction_next s

theorem handle_next (e : Event) (s : State) : ∃ t, handle e s = .next t := by
  cases e with
  | cycle => exact cycle_next s
  | tick | rst | load => exact ⟨_, rfl⟩

/-- Settles O18: every event is handled to a next state, an error being one too. -/
theorem everyStepAnswersANextState : Obligations.EveryStepAnswersANextState := fun s =>
  handle_next s.nextInput s.issued

/-! ### What has changed was written -/

section
variable {i : Instr} {s t : State}

/-- A part other than the run state that an instruction changes is among its written parts. -/
theorem mem_writtenParts {p : Part} (hexec : exec i s = .next t) (hp : p ≠ .run) (hchanged : ¬Kept p s t) :
    p ∈ writtenParts i := by
  obtain ⟨u, hu, hframe⟩ := exec_endsFramed i s
  cases hu.symm.trans hexec
  by_contra hnot
  rcases hframe with hframe | ⟨e, _, rfl⟩
  · exact hchanged (hframe p hnot)
  · exact hchanged (onlyChanges_raise s e p (by simpa using hp))

theorem stack_writers (h : .stack ∈ writtenParts i) : (∃ n, i = .call n) ∨ i = .ret := by
  cases i <;> simp [writtenParts] at h ⊢

theorem index_writers (h : .index ∈ writtenParts i) :
    (∃ n, i = .ldI n) ∨ (∃ x, i = .addIVx x) ∨ ∃ x, i = .ldFVx x := by
  cases i <;> simp [writtenParts] at h ⊢

theorem dt_writers (h : .dt ∈ writtenParts i) : ∃ x, i = .ldDtVx x := by
  cases i <;> simp [writtenParts] at h ⊢

theorem st_writers (h : .st ∈ writtenParts i) : ∃ x, i = .ldStVx x := by
  cases i <;> simp [writtenParts] at h ⊢

theorem fb_writers (h : .fb ∈ writtenParts i) : i = .cls ∨ ∃ x y n, i = .drw x y n := by
  cases i <;> simp [writtenParts] at h ⊢

theorem mem_writers (h : .mem ∈ writtenParts i) : (∃ x, i = .ldBVx x) ∨ ∃ x, i = .ldMemVx x := by
  cases i <;> simp [writtenParts] at h ⊢

theorem run_writers (h : .run ∈ writtenParts i) : ∃ x, i = .ldVxK x := by
  cases i <;> simp [writtenParts] at h ⊢

end

/-- Settles O22: a part that has changed is a written part, and each of the four has the writers the spec names. -/
theorem specialRegistersHaveTheirWriters : Obligations.SpecialRegistersHaveTheirWriters := by
  intro i s t hexec
  refine ⟨fun h => ?_, fun h => ?_, fun h => ?_, fun h => ?_⟩
  · exact stack_writers (mem_writtenParts hexec nofun h)
  · exact index_writers (mem_writtenParts hexec nofun h)
  · exact dt_writers (mem_writtenParts hexec nofun h)
  · exact st_writers (mem_writtenParts hexec nofun h)

/-- Settles O23: a changed pixel, or byte, is a change of the framebuffer, or of memory, and those have their writers. -/
theorem pixelsAndMemoryHaveTheirWriters : Obligations.PixelsAndMemoryHaveTheirWriters := by
  intro i s t hexec
  constructor
  · rintro ⟨x, y, h⟩
    exact fb_writers (mem_writtenParts hexec nofun fun hkept => h (hkept x y))
  · rintro ⟨a, h⟩
    exact mem_writers (mem_writtenParts hexec nofun fun hkept => h (hkept a))

/-- Settles O25: the run state is written by `FX0A` alone, and an error raised changes nothing but the run state. -/
theorem errorsArePreciseAndOfTheNamedKind : Obligations.ErrorsArePreciseAndOfTheNamedKind := by
  intro i s t hexec hne
  obtain ⟨u, hu, hframe⟩ := exec_endsFramed i s
  cases hu.symm.trans hexec
  rcases hframe with hframe | ⟨e, he, rfl⟩
  · by_cases hmem : .run ∈ writtenParts i
    · obtain ⟨x, rfl⟩ := run_writers hmem
      cases (exec_ldVxK x s).symm.trans hexec
      exact .inl ⟨x, rfl, rfl⟩
    · exact absurd (hframe .run hmem) hne
  · exact .inr ⟨e, rfl, he, onlyChanges_raise s e⟩

/-! ### The writers of `VF` -/

section
variable {i : Instr} {s t : State}

/-- An instruction that does not write the registers keeps each of them. -/
theorem reg_of_not_written (hexec : exec i s = .next t) (hi : .regs ∉ writtenParts i) (r : Reg) :
    t.reg r = s.reg r := by
  by_contra hne
  exact hi (mem_writtenParts hexec nofun fun hkept => hne (hkept r))

theorem ne_of_beq_false {x : Reg} (h : (x == vf) = false) : vf ≠ x := Ne.symm (beq_eq_false_iff_ne.mp h)

/-- A block load up to a register other than `VF` keeps `VF`, the highest register. -/
theorem vf_of_ldVxMem {x : Reg} (hx : vf ≠ x) (hexec : exec (.ldVxMem x) s = .next t) : t.reg vf = s.reg vf := by
  rcases exec_ldVxMem_cases x s with ⟨_, hok⟩ | herror
  · cases hok.symm.trans hexec
    have hlow : ¬vf.toNat ≤ x.toNat := by
      intro h
      exact hx (BitVec.eq_of_toNat_eq (Nat.le_antisymm h (Nat.le_of_lt_succ x.isLt)))
    exact (reg_of_loaded s x vf).trans (if_neg hlow)
  · cases herror.symm.trans hexec
    rfl

/-- An instruction outside the list of R24 keeps `VF`. -/
theorem vf_of_not_mayWriteVf (hi : mayWriteVf i = false) (hexec : exec i s = .next t) : t.reg vf = s.reg vf := by
  cases i with
  | addReg | sub | shr | subn | shl | drw => cases hi
  | ldImm | addImm | ldReg | orReg | andReg | xorReg | ldVxDt =>
    cases hexec
    exact s.setReg_reg_other _ (ne_of_beq_false hi)
  | rnd =>
    cases hexec
    exact s.drawn.setReg_reg_other _ (ne_of_beq_false hi)
  | ldVxMem => exact vf_of_ldVxMem (ne_of_beq_false hi) hexec
  | cls | ret | jp | call | seImm | sneImm | seReg | sneReg | ldI | jpV0 | skp | sknp | ldVxK | ldDtVx | ldStVx | addIVx
  | ldFVx | ldBVx | ldMemVx => exact reg_of_not_written hexec (by simp [writtenParts]) vf

end

/-- Settles O24: an instruction outside the list writes no register, or one it names that is not `VF`. -/
theorem vfHasItsWriters : Obligations.VfHasItsWriters := by
  intro i s t hexec hne
  by_contra hi
  exact hne (vf_of_not_mayWriteVf (Bool.not_eq_true _ ▸ hi) hexec)

end Sys2Proof.Machine
end

section
/-! PROOF. The block's record is the whole state of the block (10_state.md R20): in two states with one record, between which
only the environment differs, an instruction and an event lead to one record again. -/

namespace Sys2Proof.Machine

/-- Both outcomes are next states, with the same record. -/
def BlocksAgree (o o' : Host.Outcome State Fault Refusal) : Prop :=
  ∃ t t', o = .next t ∧ o' = .next t' ∧ t.toBlock = t'.toBlock

/-- Writing the same bytes into the same register file gives the same record. -/
theorem State.setRegsFrom_toBlock {s s' : State} (h : s.toBlock = s'.toBlock) (k : Nat) (bs : List Byte) :
    (s.setRegsFrom k bs).toBlock = (s'.setRegsFrom k bs).toBlock := by
  induction bs generalizing s s' k with
  | nil => exact h
  | cons b rest ih =>
    obtain ⟨block, env⟩ := s
    obtain ⟨block', env'⟩ := s'
    cases h
    exact ih (s := State.setReg ⟨block, env⟩ _ b) (s' := State.setReg ⟨block, env'⟩ _ b) rfl (k + 1)

section
variable (b : Block) (e e' : Env)

/-! ### The instructions

With the record `b` shared, all but the block load and the answers of the environment is the same by definition. -/

theorem call_blocksAgree (nnn : Addr) : BlocksAgree (exec (.call nnn) ⟨b, e⟩) (exec (.call nnn) ⟨b, e'⟩) := by
  by_cases h : b.stack.length < stackDepth
  · exact ⟨_, _, exec_call_ok nnn ⟨b, e⟩ h, exec_call_ok nnn ⟨b, e'⟩ h, rfl⟩
  · have h := Nat.le_of_not_lt h
    exact ⟨_, _, exec_call_full nnn ⟨b, e⟩ h, exec_call_full nnn ⟨b, e'⟩ h, rfl⟩

theorem ret_blocksAgree : BlocksAgree (exec .ret ⟨b, e⟩) (exec .ret ⟨b, e'⟩) := by
  rcases List.eq_nil_or_concat' b.stack with h | ⟨xs, w, h⟩
  · exact ⟨_, _, exec_ret_empty ⟨b, e⟩ h, exec_ret_empty ⟨b, e'⟩ h, rfl⟩
  · exact ⟨_, _, exec_ret_ok ⟨b, e⟩ h, exec_ret_ok ⟨b, e'⟩ h, rfl⟩

theorem drw_blocksAgree (x y : Reg) (n : BitVec 4) :
    BlocksAgree (exec (.drw x y n) ⟨b, e⟩) (exec (.drw x y n) ⟨b, e'⟩) := by
  by_cases h : n.toNat = 0 ∨ b.index.toNat + n.toNat ≤ 4096
  · exact ⟨_, _, exec_drw_ok x y n ⟨b, e⟩ h, exec_drw_ok x y n ⟨b, e'⟩ h, rfl⟩
  · obtain ⟨h0, h⟩ := not_or.mp h
    have h := Nat.lt_of_not_le h
    exact ⟨_, _, exec_drw_error x y n ⟨b, e⟩ h0 h, exec_drw_error x y n ⟨b, e'⟩ h0 h, rfl⟩

theorem ldBVx_blocksAgree (x : Reg) : BlocksAgree (exec (.ldBVx x) ⟨b, e⟩) (exec (.ldBVx x) ⟨b, e'⟩) := by
  by_cases h : b.index.toNat + 2 < 4096
  · exact ⟨_, _, exec_ldBVx_ok x ⟨b, e⟩ h, exec_ldBVx_ok x ⟨b, e'⟩ h, rfl⟩
  · have h := Nat.le_of_not_lt h
    exact ⟨_, _, exec_ldBVx_error x ⟨b, e⟩ h, exec_ldBVx_error x ⟨b, e'⟩ h, rfl⟩

theorem ldMemVx_blocksAgree (x : Reg) : BlocksAgree (exec (.ldMemVx x) ⟨b, e⟩) (exec (.ldMemVx x) ⟨b, e'⟩) := by
  by_cases h : b.index.toNat + x.toNat < 4096
  · exact ⟨_, _, exec_ldMemVx_ok x ⟨b, e⟩ h, exec_ldMemVx_ok x ⟨b, e'⟩ h, rfl⟩
  · have h := Nat.le_of_not_lt h
    exact ⟨_, _, exec_ldMemVx_error x ⟨b, e⟩ h, exec_ldMemVx_error x ⟨b, e'⟩ h, rfl⟩

theorem ldVxMem_blocksAgree (x : Reg) : BlocksAgree (exec (.ldVxMem x) ⟨b, e⟩) (exec (.ldVxMem x) ⟨b, e'⟩) := by
  by_cases h : b.index.toNat + x.toNat < 4096
  · refine ⟨_, _, exec_ldVxMem_ok x ⟨b, e⟩ h, exec_ldVxMem_ok x ⟨b, e'⟩ h, ?_⟩
    have hregs := State.setRegsFrom_toBlock (s := ⟨b, e⟩) (s' := ⟨b, e'⟩) rfl 0
      (State.sprite ⟨b, e⟩ (x.toNat + 1))
    exact congrArg (fun c : Block => { c with pc := c.pc + 2 }) hregs
  · have h := Nat.le_of_not_lt h
    exact ⟨_, _, exec_ldVxMem_error x ⟨b, e⟩ h, exec_ldVxMem_error x ⟨b, e'⟩ h, rfl⟩

theorem exec_blocksAgree (i : Instr) (hrand : State.rand8 ⟨b, e⟩ = State.rand8 ⟨b, e'⟩)
    (hkey : ∀ k, State.keyDown ⟨b, e⟩ k = State.keyDown ⟨b, e'⟩ k) :
    BlocksAgree (exec i ⟨b, e⟩) (exec i ⟨b, e'⟩) := by
  cases i with
  | call nnn => exact call_blocksAgree b e e' nnn
  | ret => exact ret_blocksAgree b e e'
  | drw x y n => exact drw_blocksAgree b e e' x y n
  | ldBVx x => exact ldBVx_blocksAgree b e e' x
  | ldMemVx x => exact ldMemVx_blocksAgree b e e' x
  | ldVxMem x => exact ldVxMem_blocksAgree b e e' x
  | rnd x nn =>
    refine ⟨_, _, exec_rnd x nn _, exec_rnd x nn _, ?_⟩
    rw [hrand]
    rfl
  | skp x =>
    refine ⟨_, _, exec_skp x _, exec_skp x _, ?_⟩
    rw [hkey]
    rfl
  | sknp x =>
    refine ⟨_, _, exec_sknp x _, exec_sknp x _, ?_⟩
    rw [hkey]
    rfl
  | cls | jp | jpV0 | seImm | sneImm | seReg | sneReg | ldImm | addImm | ldReg | orReg | andReg | xorReg | addReg | sub
  | shr | subn | shl | ldI | ldVxDt | ldVxK | ldDtVx | ldStVx | addIVx | ldFVx => exact ⟨_, _, rfl, rfl, rfl⟩

/-! ### The events -/

theorem runInstruction_blocksAgree (hrand : State.rand8 ⟨b, e⟩ = State.rand8 ⟨b, e'⟩)
    (hkey : ∀ k, State.keyDown ⟨b, e⟩ k = State.keyDown ⟨b, e'⟩ k) :
    BlocksAgree (runInstruction ⟨b, e⟩) (runInstruction ⟨b, e'⟩) := by
  have hfetch : State.fetch ⟨b, e'⟩ = State.fetch ⟨b, e⟩ := rfl
  unfold runInstruction
  rw [hfetch]
  cases State.fetch ⟨b, e⟩ with
  | error err => exact ⟨_, _, rfl, rfl, rfl⟩
  | ok w =>
    dsimp only
    cases decodeWord w with
    | error r => exact ⟨_, _, rfl, rfl, rfl⟩
    | ok i => exact exec_blocksAgree b e e' i hrand hkey

theorem awaitKeyPoll_toBlock (x : Reg) (hevent : State.keyEvent ⟨b, e⟩ = State.keyEvent ⟨b, e'⟩) :
    (State.awaitKeyPoll ⟨b, e⟩ x).toBlock = (State.awaitKeyPoll ⟨b, e'⟩ x).toBlock := by
  unfold State.awaitKeyPoll
  rw [hevent]
  cases State.keyEvent ⟨b, e'⟩ with
  | none | some k => rfl

theorem loadImage_toBlock (img : Image) :
    (State.loadImage ⟨b, e⟩ img).toBlock = (State.loadImage ⟨b, e'⟩ img).toBlock := by
  unfold State.loadImage
  cases loadBytes img.prog Config.progBase (loadFont img b.mem) with
  | error err => rfl
  | ok m =>
    cases b.run with
    | running | awaitingKey x | halted err => rfl

theorem cycle_blocksAgree (hrand : State.rand8 ⟨b, e⟩ = State.rand8 ⟨b, e'⟩)
    (hkey : ∀ k, State.keyDown ⟨b, e⟩ k = State.keyDown ⟨b, e'⟩ k)
    (hevent : State.keyEvent ⟨b, e⟩ = State.keyEvent ⟨b, e'⟩) : BlocksAgree (cycle ⟨b, e⟩) (cycle ⟨b, e'⟩) := by
  cases hrun : b.run with
  | halted err => exact ⟨_, _, cycle_halted ⟨b, e⟩ hrun, cycle_halted ⟨b, e'⟩ hrun, rfl⟩
  | awaitingKey x =>
    exact ⟨_, _, cycle_awaiting ⟨b, e⟩ hrun, cycle_awaiting ⟨b, e'⟩ hrun, awaitKeyPoll_toBlock b e e' x hevent⟩
  | running =>
    rw [cycle_running ⟨b, e⟩ hrun, cycle_running ⟨b, e'⟩ hrun]
    exact runInstruction_blocksAgree b e e' hrand hkey

end

/-- Settles O54: with the record shared, the environment enters through its answers and, for `rst`, its image alone. -/
theorem blockDependsOnItsRecordAndTheAnswersAlone : Obligations.BlockDependsOnItsRecordAndTheAnswersAlone := by
  rintro ⟨b, e⟩ ⟨b', e'⟩ hblock hrand hkey
  obtain rfl : b = b' := hblock
  refine ⟨fun i => exec_blocksAgree b e e' i hrand hkey, fun ev hevent himage => ?_⟩
  cases ev with
  | cycle => exact cycle_blocksAgree b e e' hrand hkey (hevent rfl)
  | tick => exact ⟨_, _, rfl, rfl, rfl⟩
  | rst =>
    have himage : e.image = e'.image := himage rfl
    refine ⟨_, _, rfl, rfl, ?_⟩
    unfold State.rst
    rw [himage]
    rfl
  | load img => exact ⟨_, _, rfl, rfl, loadImage_toBlock b e e' img⟩

end Sys2Proof.Machine
end

section
/-! SUPPORT. Frames put together: a larger frame, and one transition after another (00_scope.md R8). -/

namespace Sys2Proof.Machine

variable {s t u : State}

theorem OnlyChanges.mono {parts more : List Part} (h : OnlyChanges parts s t) (hsub : parts ⊆ more) :
    OnlyChanges more s t :=
  fun p hp => h p fun hmem => hp (hsub hmem)

theorem Kept.trans {p : Part} (hst : Kept p s t) (htu : Kept p t u) : Kept p s u := by
  cases p with
  | regs => exact fun r => (htu r).trans (hst r)
  | mem => exact fun a => (htu a).trans (hst a)
  | fb => exact fun x y => (htu x y).trans (hst x y)
  | index | pc | stack | dt | st | run | image | draws | answers | schedule | pulses => exact Eq.trans htu hst

theorem OnlyChanges.trans {parts : List Part} (hst : OnlyChanges parts s t) (htu : OnlyChanges parts t u) :
    OnlyChanges parts s u :=
  fun p hp => (hst p hp).trans (htu p hp)

/-- Taking the next event off the list stays within a frame that lists the schedule. -/
theorem onlyChanges_schedule (s : State) (rest : List Event) : OnlyChanges [.schedule] s { s with schedule := rest } := by
  intro p hp
  cases p with
  | schedule => exact absurd (List.mem_singleton_self _) hp
  | regs | mem => exact fun _ => rfl
  | fb => exact fun _ _ => rfl
  | index | pc | stack | dt | st | run | image | draws | answers | pulses => rfl

/-- An output pulse stays within a frame that lists the pulses. -/
theorem OnlyChanges.emit {parts : List Part} (h : OnlyChanges parts s t) (hpulses : .pulses ∈ parts) (p : Pulse) :
    OnlyChanges parts s (t.emit p) := by
  intro q hq
  cases q with
  | pulses => exact absurd hpulses hq
  | regs | stack | mem | index | pc | dt | st | fb | run | image | draws | answers | schedule => exact h _ hq

end Sys2Proof.Machine
end

section
/-! PROOF. Reset, `rst` and `load` (10_state.md R44; 20_memory.md R57, R65; 70_reset_and_hazards.md R260, R265). -/

namespace Sys2Proof.Machine

/-! ### The reset values -/

/-- Every register is 0 after a reset, with whatever image (R44, D2). -/
theorem State.restart_reg (s : State) (img : Image) (r : Reg) : (s.restart img).reg r = 0 :=
  Vector.getElem_replicate r.isLt

/-- Every pixel is clear after a reset. -/
theorem State.restart_pixel (s : State) (img : Image) (x : Fin 64) (y : Fin 32) :
    (s.restart img).fb.pixel x y = false :=
  Framebuffer.pixel_clear x y

/-- Settles O1: the reset state is a restart's, over the memory that lists no cell. -/
theorem resetLeavesTheListedValues : Obligations.ResetLeavesTheListedValues :=
  ⟨rfl, rfl, rfl, rfl, Framebuffer.pixel_clear, rfl, rfl, State.reset.restart_reg ⟨Config.font, []⟩, rfl, fun _ => rfl⟩

/-! ### The memory after a load -/

/-- Past its 80 bytes a font reads as 0, the zero fill of a reset memory (D2). -/
theorem Image.font_getD_high (img : Image) {a : Nat} (h : 80 ≤ a) : img.font.toList.getD a 0 = 0 := by
  rw [List.getD_eq_getElem?_getD, List.getElem?_eq_none (by simpa using h), Option.getD_none]

/-- Font at 0, program at 512, 0 elsewhere (R57, R260). -/
theorem read_bootMemory (img : Image) (hfit : 512 + img.prog.length ≤ 4096) (a : Nat) :
    (bootMemory img).1.read a = if a < 512 then img.font.toList.getD a 0 else img.prog.getD (a - 512) 0 := by
  rw [bootMemory_ok hfit, Memory.read_setBytes, read_loadFont]
  by_cases hlow : a < 512
  · rw [if_pos hlow, if_neg (by omega)]
  · rw [if_neg hlow]
    by_cases hprog : a < 512 + img.prog.length
    · rw [if_pos ⟨Nat.le_of_not_lt hlow, hprog⟩]
    · rw [if_neg (by omega), img.font_getD_high (by omega), List.getD_eq_getElem?_getD,
        List.getElem?_eq_none (by omega), Option.getD_none]

/-- The font load writes the cells 0 to 79 and no other, over any memory. -/
theorem read_loadFont_over (img : Image) (m : Memory) (a : Nat) :
    (loadFont img m).read a = if a < 80 then img.font.toList.getD a 0 else m.read a := by
  rw [loadFont, Memory.read_setBytes]
  simp [Config.fontBase]

/-! ### The events -/

/-- Settles O2: an `rst` is a restart with the last image, whose memory and run state are the boot's. -/
theorem rstRestoresEveryResetValue : Obligations.RstRestoresEveryResetValue := by
  intro s rest hsched
  refine ⟨_, step_event s hsched, rfl, rfl, State.restart_reg _ _, rfl, rfl, rfl, State.restart_pixel _ _,
    rfl, rfl, rfl, rfl, rfl, fun hfit => ⟨?_, read_bootMemory s.image hfit⟩, fun hbig => ⟨?_, fun a => ?_⟩⟩
  · exact congrArg Prod.snd (bootMemory_ok hfit)
  · exact congrArg Prod.snd (bootMemory_error hbig)
  · show (bootMemory s.image).1.read a = _
    rw [bootMemory_error hbig, read_loadFont]

/-- A load that fits, into an engine that is not halted, restarts it with the new image (R265). -/
theorem State.loadImage_fits (s : State) (img : Image) (hfit : 512 + img.prog.length ≤ 4096) (hsafe : s.Safe) :
    s.loadImage img = s.restart img := by
  rw [State.loadImage, loadBytes_ok (o := Config.progBase) hfit]
  cases hrun : s.run with
  | halted e => exact absurd hrun (hsafe e)
  | running | awaitingKey x => rfl

/-- A load that does not fit writes the font, keeps the image for the next `rst`, and halts the engine (R226, D27). -/
theorem State.loadImage_big (s : State) (img : Image) (hbig : 4096 < 512 + img.prog.length) :
    s.loadImage img =
      { s with mem := loadFont img s.mem, image := img, run := .halted (.romTooLarge img.prog.length) } := by
  rw [State.loadImage, loadBytes_error (o := Config.progBase) hbig]

theorem loadStatus_ok (s : State) (hfit : 512 + s.image.prog.length ≤ 4096) : s.loadStatus = .ok := if_pos hfit

theorem loadStatus_romTooLarge (s : State) (hbig : 4096 < 512 + s.image.prog.length) : s.loadStatus = .romTooLarge :=
  if_neg (Nat.not_le_of_lt hbig)

/-- Settles O3: the load restarts the engine, with the boot memory of the new image. -/
theorem loadPlacesFontAndProgram : Obligations.LoadPlacesFontAndProgram := by
  intro s img rest hsched hsafe hfit
  have hstep : step s = .next (State.restart { s with schedule := rest } img) :=
    (step_event s hsched).trans
      (congrArg Host.Outcome.next (State.loadImage_fits { s with schedule := rest } img hfit hsafe))
  exact ⟨_, hstep, congrArg Prod.snd (bootMemory_ok hfit), loadStatus_ok _ hfit, rfl, rfl, rfl, rfl,
    State.restart_reg _ _, rfl, rfl, rfl, State.restart_pixel _ _, read_bootMemory img hfit⟩

/-- Settles O4: the font is written below 80, the program's error halts the engine, and the frame is read off. -/
theorem loadThatDoesNotFitHalts : Obligations.LoadThatDoesNotFitHalts := by
  intro s img rest hsched hbig
  have hstep := (step_event s hsched).trans
    (congrArg Host.Outcome.next (State.loadImage_big { s with schedule := rest } img hbig))
  refine ⟨_, hstep, rfl, loadStatus_romTooLarge _ hbig, rfl, rfl, fun a ha => ?_, fun a ha => ?_, fun p hp => ?_⟩
  · exact (read_loadFont_over img s.mem a).trans (if_pos ha)
  · exact (read_loadFont_over img s.mem a).trans (if_neg (Nat.not_lt_of_le ha))
  · cases p with
    | run | mem | image | schedule => exact absurd (by decide) hp
    | regs => exact fun _ => rfl
    | fb => exact fun _ _ => rfl
    | index | pc | stack | dt | st | draws | answers | pulses => rfl

end Sys2Proof.Machine
end

section
/-! PROOF. The ticks (60_exceptions.md R231 to R235): one counts down by one, `k` in a row by `k`, and neither timer passes
0. -/

namespace Sys2Proof.Machine

theorem countDown_toNat (b : Byte) : (countDown b).toNat = b.toNat - 1 := by
  unfold countDown
  by_cases h : b = 0
  · rw [if_pos h, h]
    rfl
  · rw [if_neg h]
    bv_omega

/-- A tick changes the timers, sends a pulse, and changes nothing else, in any run state (R231, R234). -/
theorem onlyChanges_tick (s : State) : OnlyChanges [.dt, .st, .pulses] s s.tick :=
  (((OnlyChanges.refl _ s).setDt (by decide) _).setSt (by decide) _).emit (by decide) _

/-- Settles O5: the tick is two counts down and a pulse, on the state that has lost the event. -/
theorem tickCountsDownBothTimers : Obligations.TickCountsDownBothTimers := by
  intro s rest hsched
  have hframe : OnlyChanges [.dt, .st, .pulses, .schedule] s (State.tick { s with schedule := rest }) :=
    ((onlyChanges_schedule s rest).mono (by simp)).trans ((onlyChanges_tick _).mono (by simp))
  exact ⟨_, step_event s hsched, countDown_toNat s.dt, countDown_toNat s.st, rfl, rfl, hframe⟩

/-- A run of `k + 1` steps goes on with `k` steps from the first next state. -/
theorem run_succ {M : Host.Core} {s t : M.State} (k : Nat) (h : M.step s = .next t) : M.run (k + 1) s = M.run k t := by
  rw [Host.Core.run, h]

/-- Settles O6: by induction on the number of ticks; the first one is a tick as above, and the rest go on from there. -/
theorem ticksCountDownToZeroAndStay : Obligations.TicksCountDownToZeroAndStay := by
  intro k
  induction k with
  | zero =>
    intro s rest hsched
    exact ⟨s, rfl, rfl, rfl, s.tone_iff, (List.append_nil _).symm, hsched, OnlyChanges.refl _ s⟩
  | succ k ih =>
    intro s rest hsched
    obtain ⟨t, hstep, hdt, hst, hpulses, hnext, hframe⟩ := tickCountsDownBothTimers s _ hsched
    obtain ⟨u, hrun, hdt', hst', htone, hpulses', hrest, hframe'⟩ := ih t rest hnext
    refine ⟨u, (run_succ (M := Sys2Proof.core) k hstep).trans hrun, by omega, by omega, ?_, ?_, hrest, hframe.trans hframe'⟩
    · rw [htone]
      omega
    · rw [hpulses', hpulses, List.append_assoc, List.replicate_succ, List.singleton_append]

end Sys2Proof.Machine
end

section
/-! PROOF. The cycle in each run state (30_encoding.md R90 to R95; 44_keys_timers.md R205): the running engine executes what it
decoded or faults at the fetch, and the waiting engine polls once. -/

namespace Sys2Proof.Machine

variable {s : State}

/-- The instruction whose bytes stand at `PC` is executed (R90). -/
theorem runInstruction_of_decode {i : Instr} (hpc : s.pc.toNat + 2 ≤ 4096)
    (h : decode [s.byte s.pc.toNat, s.byte (s.pc.toNat + 1)] = .ok (i, [])) : runInstruction s = exec i s := by
  have hword : decodeWord (wordOfBytes (s.byte s.pc.toNat) (s.byte (s.pc.toNat + 1))) = .ok i := by
    rw [decode] at h
    cases hd : decodeWord (wordOfBytes (s.byte s.pc.toNat) (s.byte (s.pc.toNat + 1))) with
    | error r => rw [hd] at h; cases h
    | ok j => rw [hd] at h; cases h; rfl
  simp only [runInstruction, s.fetch_ok hpc, hword]

/-- Settles O13: the step is a cycle of the running engine, which executes the instruction fetched and decoded. -/
theorem stepRunsTheDecodedInstruction : Obligations.StepRunsTheDecodedInstruction := by
  intro s i hrun hpc hdecode
  refine ⟨fun hsched => ?_, fun rest hsched => ?_⟩
  · rw [step_cycle s hsched, cycle_running s hrun, runInstruction_of_decode hpc hdecode]
  · have hcycle : step s = runInstruction { s with schedule := rest } :=
      (step_event s hsched).trans (cycle_running { s with schedule := rest } hrun)
    exact hcycle.trans (runInstruction_of_decode hpc hdecode)

/-- Settles O15: at 4095 and above the fetch fails, first at 4096 or at `PC` itself. -/
theorem fetchOutsideMemoryHalts : Obligations.FetchOutsideMemoryHalts := by
  intro s hc hrun hpc
  have haddr : max s.pc.toNat 4096 = if s.pc.toNat = 4095 then 4096 else s.pc.toNat := by
    split <;> omega
  have hfetch := s.issued.fetch_error hpc
  refine ⟨s.issued.raise (.outOfBounds (max s.pc.toNat 4096) s.pc), ?_, ?_, onlyChanges_issued_raise s _⟩
  · rw [step_cycleNext s hc, cycle_running s.issued hrun, runInstruction, hfetch]
    rfl
  · rw [State.raise_run, haddr]

/-! ### The poll -/

theorem State.awaitKeyPoll_none (s : State) (x : Reg) (h : s.keyEvent = none) : s.awaitKeyPoll x = s.drawn := by
  rw [State.awaitKeyPoll, h]

theorem State.awaitKeyPoll_some (s : State) (x : Reg) {k : Reg} (h : s.keyEvent = some k) :
    s.awaitKeyPoll x = ((s.drawn.setReg x (k.setWidth 8)).setPc (s.pc + 2)).setRun .running := by
  rw [State.awaitKeyPoll, h]

theorem onlyChanges_issued_drawn (s : State) : OnlyChanges [.draws, .answers, .schedule] s s.issued.drawn :=
  ((onlyChanges_issued s).mono (by simp)).drawn (by decide) (by decide)

theorem onlyChanges_key_taken (s : State) (x : Reg) (b : Byte) (w : Word) (r : Run) :
    OnlyChanges [.regs, .pc, .run, .draws, .answers, .schedule] s
      (((s.issued.drawn.setReg x b).setPc w).setRun r) :=
  ((((onlyChanges_issued_drawn s).mono (by simp)).setReg (by decide) x b).setPc (by decide) w).setRun (by decide) r

/-- Settles O17: the poll asks one question, and does nothing without a key or takes the key it is answered. -/
theorem keyPollWaitsOrTakesTheKey : Obligations.KeyPollWaitsOrTakesTheKey := by
  intro s x hc hrun
  have hstep : step s = .next (s.issued.awaitKeyPoll x) :=
    (step_cycleNext s hc).trans (cycle_awaiting s.issued hrun)
  cases hkey : s.keyEvent with
  | none =>
    rw [s.issued.awaitKeyPoll_none x hkey] at hstep
    exact ⟨_, hstep, rfl, onlyChanges_issued_drawn s⟩
  | some k =>
    rw [s.issued.awaitKeyPoll_some x hkey] at hstep
    have hreg : (s.issued.drawn.setReg x (k.setWidth 8)).reg x = k.setWidth 8 := State.setReg_reg_same _ x _
    have hvalue : (k.setWidth 8).toNat = k.toNat := BitVec.toNat_setWidth_of_le (by decide)
    refine ⟨_, hstep, rfl, (congrArg BitVec.toNat hreg).trans hvalue, rfl, rfl, fun r hr => ?_,
      onlyChanges_key_taken s x _ _ _⟩
    exact s.issued.drawn.setReg_reg_other _ (List.ne_of_not_mem_cons hr)

end Sys2Proof.Machine
end

section
/-! PROOF. Control transfer: `2NNN`, `00EE`, `BNNN` and `9XY0` (41_control.md R122, R123, R127, R128). -/

namespace Sys2Proof.Machine

/-- Settles O30: one write of `PC`, of a sum too small to wrap. -/
theorem jpV0AddsV0ToTheTarget : Obligations.JpV0AddsV0ToTheTarget := fun nnn =>
  ⟨decodeWord_jpV0 nnn, fun s => ⟨_, exec_jpV0 nnn s, jumpTarget_toNat nnn (s.reg 0), onlyChanges_setPc s _⟩⟩

/-- Settles O31: a push with room and a jump, or the push's error. -/
theorem callPushesTheReturnAddress : Obligations.CallPushesTheReturnAddress := by
  refine fun nnn => ⟨decodeWord_call nnn, Nat.le_add_left 16 _, fun s => ⟨fun hroom => ?_, fun hfull => ?_⟩⟩
  · exact ⟨_, exec_call_ok nnn s hroom, rfl, addrWord_toNat nnn, onlyChanges_setStack_setPc s _ _⟩
  · exact ⟨_, exec_call_full nnn s hfull.ge, rfl, onlyChanges_raise s _⟩

/-- Settles O32: a pop into `PC`, or the pop's error. -/
theorem retPopsIntoThePc : Obligations.RetPopsIntoThePc := by
  refine ⟨decodeWord_encode .ret, fun s => ⟨fun xs w htop => ?_, fun hempty => ?_⟩⟩
  · exact ⟨_, exec_ret_ok s htop, rfl, rfl, onlyChanges_setStack_setPc s xs w⟩
  · exact ⟨_, exec_ret_empty s hempty, rfl, onlyChanges_raise s _⟩

/-- After a call a return pops what the call pushed: all that is left of the two is the advance of `PC`. -/
theorem exec_ret_after_call (s : State) (w target : Word) :
    exec .ret ((s.setStack (s.stack ++ [w])).setPc target) = .next (s.setPc w) :=
  exec_ret_ok ((s.setStack (s.stack ++ [w])).setPc target) rfl

/-- Settles O33: with room on the stack the call pushes `PC + 2`, and the return pops it. -/
theorem returnUndoesTheCall : Obligations.ReturnUndoesTheCall := by
  intro nnn s t hroom hcall
  cases (exec_call_ok nnn s hroom).symm.trans hcall
  exact ⟨_, exec_ret_after_call s _ _, rfl, onlyChanges_setPc s _⟩

/-- Settles O36: `skip_if` on inequality of the registers; in group 9 the decoder asks for a low nibble of 0. -/
theorem sneRegSkipsOnUnequalRegisters : Obligations.SneRegSkipsOnUnequalRegisters := by
  refine fun x y => ⟨decodeWord_sneReg x y, fun _ hn => decodeWord_group9_lowNibble x y hn, fun s => ?_⟩
  refine exec_of_skipIf (exec_sneReg x y s) (fun hne => ?_) (fun heq => ?_)
  · rw [bne, beq_of_toNat_ne hne, Bool.not_false]
  · rw [bne, beq_of_toNat_eq heq, Bool.not_true]

end Sys2Proof.Machine
end

section
/-! PROOF. Logic, shifts and the random byte (42_alu.md R155 to R157, R160, R162, R163). -/

namespace Sys2Proof.Machine

/-- Settles O39: each is one write of `V[X]`, of the bitwise result. -/
theorem logicCombinesBitByBit : Obligations.LogicCombinesBitByBit := by
  refine fun x y => ⟨decodeWord_orReg x y, decodeWord_andReg x y, decodeWord_xorReg x y, fun s => ⟨?_, ?_, ?_⟩⟩
  · obtain ⟨t, ht, hresult, hframe⟩ := exec_of_setReg (exec_orReg x y s)
    exact ⟨t, ht, fun k => hresult ▸ BitVec.getLsbD_or, hframe⟩
  · obtain ⟨t, ht, hresult, hframe⟩ := exec_of_setReg (exec_andReg x y s)
    exact ⟨t, ht, fun k => hresult ▸ BitVec.getLsbD_and, hframe⟩
  · obtain ⟨t, ht, hresult, hframe⟩ := exec_of_setReg (exec_xorReg x y s)
    exact ⟨t, ht, fun k => hresult ▸ BitVec.getLsbD_xor, hframe⟩

/-- A bit of a byte, as a flag, is the byte divided down to that bit, modulo 2. -/
theorem flagByte_bit_toNat (a : Byte) (k : Nat) : (flagByte (a.getLsbD k)).toNat = a.toNat / 2 ^ k % 2 := by
  rw [BitVec.getLsbD, Nat.testBit_eq_decide_div_mod_eq, flagByte_decide_toNat]
  split <;> omega

theorem lowBit_flag_toNat (a : Byte) : (flagByte (lowBit a)).toNat = a.toNat % 2 := by
  rw [lowBit, flagByte_bit_toNat, pow_zero, Nat.div_one]

theorem highBit_flag_toNat (a : Byte) : (flagByte (highBit a)).toNat = a.toNat / 128 := by
  rw [highBit, flagByte_bit_toNat]
  omega

theorem shiftRight_one_toNat (a : Byte) : (a >>> 1).toNat = a.toNat / 2 := by
  rw [BitVec.toNat_ushiftRight, Nat.shiftRight_one]

theorem shiftLeft_one_toNat (a : Byte) : (a <<< 1).toNat = a.toNat * 2 % 256 := by
  rw [BitVec.toNat_shiftLeft, Nat.shiftLeft_eq, pow_one]

/-- Settles O42: the shifted byte is written first, then the bit shifted out. -/
theorem shiftsSetTheBitShiftedOut : Obligations.ShiftsSetTheBitShiftedOut := by
  refine fun x y => ⟨decodeWord_shr x y, decodeWord_shl x y, fun s => ⟨?_, ?_⟩⟩
  · obtain ⟨t, ht, hresult, hflag, hframe⟩ := exec_of_setRegFlag (exec_shr x y s)
    exact ⟨t, ht, fun hx => hresult hx ▸ shiftRight_one_toNat _, hflag ▸ lowBit_flag_toNat _, hframe⟩
  · obtain ⟨t, ht, hresult, hflag, hframe⟩ := exec_of_setRegFlag (exec_shl x y s)
    exact ⟨t, ht, fun hx => hresult hx ▸ shiftLeft_one_toNat _, hflag ▸ highBit_flag_toNat _, hframe⟩

/-- Settles O43: one question to the environment and one write of `V[X]`. -/
theorem rndMasksAFreshByte : Obligations.RndMasksAFreshByte := by
  refine fun x nn => ⟨decodeWord_rnd x nn, fun s => ⟨_, exec_rnd x nn s, fun k => ?_, rfl, rfl, fun r hr => ?_, ?_⟩⟩
  · rw [State.advance_reg, State.setReg_reg_same, BitVec.getLsbD_and]
  · exact s.drawn.setReg_reg_other _ (List.ne_of_not_mem_cons hr)
  · exact onlyChanges_drawn_setReg_advance s x _

end Sys2Proof.Machine
end

section
/-! PROOF. The index addition (43_index_memory.md R181), and the instructions that ask for keys (44_keys_timers.md R200, R201,
R204). -/

namespace Sys2Proof.Machine

/-- Settles O45: one write of `I`, of the sum modulo 65536. -/
theorem addIWrapsWithoutAFlag : Obligations.AddIWrapsWithoutAFlag := by
  refine fun x => ⟨decodeWord_addIVx x, fun s => ?_⟩
  obtain ⟨t, ht, hindex, hframe⟩ := exec_of_setIndex (exec_addIVx x s)
  have hbyte : ((s.reg x).setWidth 16).toNat = (s.reg x).toNat := BitVec.toNat_setWidth_of_le (by decide)
  refine ⟨t, ht, ?_, hframe⟩
  rw [hindex, BitVec.toNat_add, hbyte]

/-- Settles O51: one question, and `skip_if` on its answer or on the answer's negation. -/
theorem skipsOnAKey : Obligations.SkipsOnAKey := by
  refine fun x => ⟨decodeWord_skp x, decodeWord_sknp x, fun s => ⟨?_, ?_⟩⟩
  · exact ⟨_, exec_skp x s, rfl, rfl, onlyChanges_drawn_setPc s _⟩
  · refine ⟨_, exec_sknp x s, ?_, rfl, onlyChanges_drawn_setPc s _⟩
    rw [State.skipIf_pc, State.drawn_pc]
    cases s.keyDown (s.reg x) with
    | true | false => rfl

/-- Settles O52: one write of the run state. -/
theorem ldVxKAwaitsAKey : Obligations.LdVxKAwaitsAKey := fun x =>
  ⟨decodeWord_ldVxK x, fun s => ⟨_, exec_ldVxK x s, rfl, onlyChanges_setRun s _⟩⟩

end Sys2Proof.Machine
end

section
/-! PROOF. The canonical form names the memory (20_memory.md R50; log 8): two lists in that form with the same reads are the same
list. -/

namespace Sys2Proof.Machine

/-- The two memories read the same at every address of the space. -/
def Memory.SameReads (m n : Memory) : Prop := ∀ a, a < 4096 → m.read a = n.read a

theorem Memory.SameReads.symm {m n : Memory} (h : m.SameReads n) : n.SameReads m := fun a ha => (h a ha).symm

/-- A cell the list does not name reads as the reset contents. -/
theorem Memory.read_of_unlisted {m : Memory} {a : Nat} (h : ∀ d ∈ m, a < d.1) : m.read a = unlistedByte a := by
  induction m with
  | nil => rfl
  | cons d rest ih =>
    obtain ⟨hd, hrest⟩ := List.forall_mem_cons.mp h
    rw [Memory.read, if_neg (Nat.ne_of_gt hd), ih hrest]

theorem Memory.read_cons_same (c : Host.Cell) (rest : Memory) : Memory.read (c :: rest) c.1 = c.2 := if_pos rfl

theorem Memory.read_cons_other {c : Host.Cell} (rest : Memory) {a : Nat} (h : c.1 ≠ a) :
    Memory.read (c :: rest) a = rest.read a := if_neg h

/-- A listed cell shows in the reads, so the other list cannot pass it over. -/
theorem Memory.head_is_listed {c : Host.Cell} {m n : Memory} (hm : Memory.wf (c :: m) = true)
    (hsame : Memory.SameReads (c :: m) n) (hn : ∀ d ∈ n, c.1 < d.1) : False := by
  obtain ⟨hc, hne, _, _⟩ := (Memory.wf_cons c m).mp hm
  refine hne ?_
  calc c.2 = Memory.read (c :: m) c.1 := (Memory.read_cons_same c m).symm
    _ = n.read c.1 := hsame c.1 hc
    _ = unlistedByte c.1 := Memory.read_of_unlisted hn

theorem Memory.eq_of_sameReads {m n : Memory} (hm : m.wf = true) (hn : n.wf = true) (hsame : m.SameReads n) :
    m = n := by
  induction m generalizing n with
  | nil =>
    cases n with
    | nil => rfl
    | cons d n => exact (Memory.head_is_listed hn hsame.symm nofun).elim
  | cons c m ih =>
    cases n with
    | nil => exact (Memory.head_is_listed hm hsame nofun).elim
    | cons d n =>
      obtain ⟨hc, _, hmlow, hm'⟩ := (Memory.wf_cons c m).mp hm
      obtain ⟨_, _, hnlow, hn'⟩ := (Memory.wf_cons d n).mp hn
      have hcd : ¬c.1 < d.1 := fun h => Memory.head_is_listed hm hsame
        (List.forall_mem_cons.mpr ⟨h, fun e he => h.trans (hnlow e he)⟩)
      have hdc : ¬d.1 < c.1 := fun h => Memory.head_is_listed hn hsame.symm
        (List.forall_mem_cons.mpr ⟨h, fun e he => h.trans (hmlow e he)⟩)
      have haddr : c.1 = d.1 := by omega
      have hbyte : c.2 = d.2 := by
        have := hsame c.1 hc
        rwa [Memory.read_cons_same, haddr, Memory.read_cons_same] at this
      have hrest : Memory.SameReads m n := fun a ha => by
        by_cases hca : c.1 = a
        · rw [Memory.read_of_unlisted (hca ▸ hmlow), Memory.read_of_unlisted (hca ▸ haddr ▸ hnlow)]
        · have := hsame a ha
          rwa [Memory.read_cons_other m hca, Memory.read_cons_other n (haddr ▸ hca)] at this
      rw [Prod.ext haddr hbyte, ih hm' hn' hrest]

/-- Settles O21: by induction on the lists, whose first cells must be the same. -/
theorem canonicalMemoryIsUnique : Obligations.CanonicalMemoryIsUnique := fun _ _ => Memory.eq_of_sameReads

end Sys2Proof.Machine
end

section
/-! PROOF. Memory transfer: `FX33`, `FX55` and `FX65` (43_index_memory.md R184 to R186), the round trip of a block, and the fetch
of what a block store wrote (20_memory.md R63). -/

namespace Sys2Proof.Machine

/-! ### What a store leaves -/

section
variable (s : State)

/-- A stored byte is read back. -/
theorem byte_of_stored (a : Nat) {bs : List Byte} {k : Nat} (hk : k < bs.length) :
    (s.setMem (s.mem.setBytes a bs)).advance.byte (a + k) = bs.getD k 0 := by
  rw [State.advance_byte, State.setMem_byte, Memory.read_setBytes, if_pos (by omega), Nat.add_sub_cancel_left]

/-- A store keeps every byte outside its block. -/
theorem bytesKeptBut_stored (a : Nat) (bs : List Byte) :
    BytesKeptBut a bs.length s (s.setMem (s.mem.setBytes a bs)).advance := by
  intro b hb
  rw [State.advance_byte, State.setMem_byte]
  exact Memory.read_setBytes_outside s.mem a b bs hb

theorem regsUpTo_getD_reg {x k : Reg} (hk : k.toNat ≤ x.toNat) : (s.regsUpTo x).getD k.toNat 0 = s.reg k := by
  rw [s.regsUpTo_getD hk, BitVec.ofNat_toNat, BitVec.setWidth_eq]

end

/-! ### The instructions -/

theorem bcdDigits_toNat (b : Byte) :
    ((bcdDigits b).getD 0 0).toNat = b.toNat / 100 ∧ ((bcdDigits b).getD 1 0).toNat = b.toNat / 10 % 10 ∧
      ((bcdDigits b).getD 2 0).toNat = b.toNat % 10 := by
  simp only [bcdDigits, List.getD_cons_zero, List.getD_cons_succ, BitVec.toNat_ofNat]
  omega

/-- Settles O46: the three digits are one store of three bytes at `I`. -/
theorem bcdStoresThreeDigits : Obligations.BcdStoresThreeDigits := by
  refine fun x => ⟨decodeWord_ldBVx x, fun s => ⟨fun hfit => ?_, fun hbig => ?_⟩⟩
  · obtain ⟨h0, h1, h2⟩ := bcdDigits_toNat (s.reg x)
    have hstored {k : Nat} (hk : k < 3) := byte_of_stored s s.dataAddr (bs := bcdDigits (s.reg x)) hk
    refine ⟨_, exec_ldBVx_ok x s hfit, ?_, ?_, ?_, rfl, bytesKeptBut_stored s _ (bcdDigits (s.reg x)),
      onlyChanges_setMem_advance s _⟩
    · exact (congrArg BitVec.toNat (hstored (k := 0) (by decide))).trans h0
    · exact (congrArg BitVec.toNat (hstored (k := 1) (by decide))).trans h1
    · exact (congrArg BitVec.toNat (hstored (k := 2) (by decide))).trans h2
  · exact ⟨_, exec_ldBVx_error x s hbig, rfl, onlyChanges_raise s _⟩

/-- Settles O47: `FX55` is one store of the registers' bytes at `I`. -/
theorem blockStoreWritesTheRegisters : Obligations.BlockStoreWritesTheRegisters := by
  refine fun x => ⟨decodeWord_ldMemVx x, fun s => ⟨fun hfit => ?_, fun hbig => ?_⟩⟩
  · have hkept := bytesKeptBut_stored s s.dataAddr (s.regsUpTo x)
    rw [s.regsUpTo_length] at hkept
    refine ⟨_, exec_ldMemVx_ok x s hfit, fun k hk => ?_, rfl, hkept, onlyChanges_setMem_advance s _⟩
    have hlength : k.toNat < (s.regsUpTo x).length := by
      rw [s.regsUpTo_length]
      exact Nat.lt_succ_of_le hk
    rw [byte_of_stored s _ hlength, regsUpTo_getD_reg s hk]
  · exact ⟨_, exec_ldMemVx_error x s hbig, rfl, onlyChanges_raise s _⟩

/-- Settles O48: `FX65` is one block load from `I`. -/
theorem blockLoadReadsTheRegisters : Obligations.BlockLoadReadsTheRegisters := by
  refine fun x => ⟨decodeWord_ldVxMem x, fun s => ⟨fun hfit => ?_, fun hbig => ?_⟩⟩
  · refine ⟨_, exec_ldVxMem_ok x s hfit, fun k hk => ?_, fun k hk => ?_, ?_, onlyChanges_setRegsFrom_advance s _ _⟩
    · exact (reg_of_loaded s x k).trans (if_pos hk)
    · exact (reg_of_loaded s x k).trans (if_neg (Nat.not_le_of_lt hk))
    · rw [State.advance_pc, State.setRegsFrom_pc]
  · exact ⟨_, exec_ldVxMem_error x s hbig, rfl, onlyChanges_raise s _⟩

/-- Settles O49: the load reads what the store wrote, since neither the store nor the registers' change moved `I`. -/
theorem blockStoreThenLoadRoundTrips : Obligations.BlockStoreThenLoadRoundTrips := by
  intro x s t t' hfit hstore hregs
  obtain ⟨_, hstored⟩ := blockStoreWritesTheRegisters x
  obtain ⟨t₁, ht₁, hbytes, _, _, hframe⟩ := (hstored s).1 hfit
  cases hstore.symm.trans ht₁
  have hindex : t'.index = s.index := Eq.trans (hregs .index (by decide)) (hframe .index (by decide))
  have haddr : t'.dataAddr = s.dataAddr := congrArg BitVec.toNat hindex
  obtain ⟨_, hloaded⟩ := blockLoadReadsTheRegisters x
  obtain ⟨u, hu, hread, _, _, hframe'⟩ := (hloaded t').1 (hindex ▸ hfit)
  refine ⟨u, hu, fun k hk => ?_, Eq.trans (hframe' .index (by decide)) hindex, fun a => ?_⟩
  · rw [hread k hk, haddr]
    exact (hregs .mem (by decide) _).trans (hbytes k hk)
  · exact (hframe' .mem (by decide) a).trans (hregs .mem (by decide) a)

/-- Settles O50: `PC` has advanced to `I`, where the first two registers stand. -/
theorem nextFetchSeesTheStore : Obligations.NextFetchSeesTheStore := by
  intro x s t hx hindex hfit hstore
  obtain ⟨_, hstored⟩ := blockStoreWritesTheRegisters x
  obtain ⟨t₁, ht₁, hbytes, hpc, _, _⟩ := (hstored s).1 hfit
  cases hstore.symm.trans ht₁
  have haddr : t.pc.toNat = s.dataAddr := by
    rw [hpc, State.dataAddr]
    bv_omega
  have hlow : s.dataAddr + 2 ≤ 4096 := Nat.le_trans (Nat.add_le_add_left (Nat.succ_le_succ hx) _) hfit
  have h0 : t.byte (s.dataAddr + 0) = s.reg 0 := hbytes 0 (Nat.zero_le _)
  have h1 : t.byte (s.dataAddr + 1) = s.reg 1 := hbytes 1 hx
  rw [t.fetch_ok (by rw [haddr]; exact hlow), haddr, h1]
  exact congrArg (fun b => Except.ok (wordOfBytes b (s.reg 1))) h0

end Sys2Proof.Machine
end

section
/-! PROOF. The draw `DXYN` (40_display.md R101 to R104): it flips the pixels the sprite covers, so a second draw flips them
back. -/

namespace Sys2Proof.Machine

/-- The pixels that the sprite of `DXYN` covers, with the sprite at `I` and its corner at `V[x]`, `V[y]` (R101). -/
def State.Covers (s : State) (x y : Reg) (n : BitVec 4) (c : Fin 64) (r : Fin 32) : Prop :=
  SpriteCovers (s.reg x).toNat (s.reg y).toNat (s.sprite n.toNat) c r

section
variable (s : State) {x y : Reg} {n : BitVec 4} {c : Fin 64} {r : Fin 32}

/-! ### The pixels -/

theorem State.sprite_length_le (n : BitVec 4) : (s.sprite n.toNat).length ≤ 32 := by
  rw [s.sprite_length]
  omega

theorem State.painted_pixel [hdec : Decidable (s.Covers x y n c r)] :
    (s.painted x y n).fb.pixel c r = (s.fb.pixel c r ^^ decide (s.Covers x y n c r)) :=
  @pixel_blit _ _ _ _ (s.sprite_length_le n) c r hdec

/-- A covered pixel is flipped (R102). -/
theorem State.painted_covered (h : s.Covers x y n c r) : (s.painted x y n).fb.pixel c r = !s.fb.pixel c r := by
  classical
  rw [s.painted_pixel, decide_eq_true h, Bool.xor_true]

/-- A pixel that is not covered is kept. -/
theorem State.painted_uncovered (h : ¬s.Covers x y n c r) : (s.painted x y n).fb.pixel c r = s.fb.pixel c r := by
  classical
  rw [s.painted_pixel, decide_eq_false h, Bool.xor_false]

/-! ### The flag -/

theorem State.canvas_collide :
    (s.canvas x y n).collide = true ↔ ∃ c r, s.Covers x y n c r ∧ s.fb.pixel c r = true := by
  refine (collide_blit _ _ _ _ (s.sprite_length_le n)).trans ?_
  simp only [Bool.false_eq_true, false_or]
  rfl

theorem State.painted_vf : (s.painted x y n).reg vf = flagByte (s.canvas x y n).collide := by
  rw [State.painted, State.advance_reg, State.setReg_reg_same]

/-- `VF` is 1 where a covered pixel was set. -/
theorem State.painted_vf_hit (h : ∃ c r, s.Covers x y n c r ∧ s.fb.pixel c r = true) :
    (s.painted x y n).reg vf = 1 := by
  rw [s.painted_vf, s.canvas_collide.mpr h]
  rfl

/-- `VF` is 0 where no covered pixel was set. -/
theorem State.painted_vf_miss (h : ∀ c r, s.Covers x y n c r → s.fb.pixel c r = false) :
    (s.painted x y n).reg vf = 0 := by
  have hmiss : (s.canvas x y n).collide = false := by
    rw [← Bool.not_eq_true, s.canvas_collide]
    rintro ⟨c, r, hcover, hset⟩
    exact Bool.noConfusion (hset.symm.trans (h c r hcover))
  rw [s.painted_vf, hmiss]
  rfl

/-- A draw keeps every register but `VF`. -/
theorem State.painted_reg {q : Reg} (h : q ≠ vf) : (s.painted x y n).reg q = s.reg q := by
  rw [State.painted, State.advance_reg, State.setReg_reg_other _ _ h, State.setFb_reg]

end

/-- Settles O27: inside memory the draw is the blit of the sprite at `I`; past it, the read's error. -/
theorem drwDrawsTheSprite : Obligations.DrwDrawsTheSprite := by
  refine fun x y n => ⟨decodeWord_drw x y n, fun s => ⟨fun hfit => ?_, fun h0 hbig => ?_⟩⟩
  · exact ⟨_, exec_drw_ok x y n s hfit, fun _ _ => s.painted_covered, fun _ _ => s.painted_uncovered, s.painted_vf_hit,
      s.painted_vf_miss, rfl, fun _ hr => s.painted_reg (List.ne_of_not_mem_cons hr), onlyChanges_painted s x y n⟩
  · exact ⟨_, exec_drw_error x y n s h0 hbig, rfl, onlyChanges_raise s _⟩

/-! ### Drawing twice -/

section
variable {s : State} {x y : Reg} {n : BitVec 4} {c : Fin 64} {r : Fin 32}

/-- The second draw covers the same pixels: the first changed neither the sprite nor its place. -/
theorem State.covers_painted (hx : x ≠ vf) (hy : y ≠ vf) : (s.painted x y n).Covers x y n c r ↔ s.Covers x y n c r := by
  rw [State.Covers, s.painted_reg hx, s.painted_reg hy]
  exact Iff.rfl

theorem State.painted_twice_fb (hx : x ≠ vf) (hy : y ≠ vf) : ((s.painted x y n).painted x y n).fb = s.fb := by
  refine Framebuffer.ext_pixel fun c r => ?_
  by_cases hcover : s.Covers x y n c r
  · rw [State.painted_covered _ ((State.covers_painted hx hy).mpr hcover), s.painted_covered hcover, Bool.not_not]
  · rw [State.painted_uncovered _ (hcover ∘ (State.covers_painted hx hy).mp), s.painted_uncovered hcover]

theorem exists_bit_of_ne_zero {b : Byte} (h : b ≠ 0) : ∃ j, j < 8 ∧ b.getLsbD (7 - j) = true := by
  by_contra hnone
  refine h (BitVec.eq_of_getLsbD_eq fun k hk => ?_)
  have hbit : b.getLsbD (7 - (7 - k)) ≠ true := fun hb => hnone ⟨7 - k, by omega, hb⟩
  rw [show 7 - (7 - k) = k by omega] at hbit
  exact (Bool.eq_false_iff.mpr hbit).trans BitVec.getLsbD_zero.symm

/-- A sprite with a set bit covers some pixel. -/
theorem State.exists_covered (x y : Reg) (h : ∃ i, i < n.toNat ∧ s.byte (s.index.toNat + i) ≠ 0) :
    ∃ c r, s.Covers x y n c r := by
  obtain ⟨i, hi, hbyte⟩ := h
  obtain ⟨j, hj, hbit⟩ := exists_bit_of_ne_zero hbyte
  refine ⟨Fin.ofNat 64 ((s.reg x).toNat + j), Fin.ofNat 32 ((s.reg y).toNat + i), i, j, ?_, hj, ?_, rfl, rfl⟩
  · rwa [s.sprite_length]
  · rwa [s.sprite_getD hi]

end

/-- Settles O28: the second draw flips the same pixels back; on a clear screen it meets those the first has set. -/
theorem drawingTwiceRestoresTheFramebuffer : Obligations.DrawingTwiceRestoresTheFramebuffer := by
  intro x y n s t u hx hy hfit ht hu
  cases (exec_drw_ok x y n s (.inr hfit)).symm.trans ht
  cases (exec_drw_ok x y n (s.painted x y n) (.inr hfit)).symm.trans hu
  refine ⟨State.painted_twice_fb hx hy, fun hbits hclear => ⟨s.painted_vf_miss fun c r _ => hclear c r, ?_⟩⟩
  obtain ⟨c, r, hcover⟩ := State.exists_covered x y hbits
  refine State.painted_vf_hit _ ⟨c, r, (State.covers_painted hx hy).mpr hcover, ?_⟩
  rw [s.painted_covered hcover, hclear c r, Bool.not_false]

end Sys2Proof.Machine
end
